-- ==== Sys2Proof/Syntax.lean ====
section
/-! DEFINITION. The sixteen commands, one constructor per row of spec/opcode_table.json (30_encoding.md R72, R74). -/

namespace Sys2Proof

/-- A command. Format CI carries its IDX field (R71), zero-extended where it is used (R73); every other operand is taken
from ARG0, ARG1, LEN and IBUF (R72). -/
inductive Instr where
  | encode
  | decode
  | theta
  | rho
  | pi
  | chi
  | iota (ir : BitVec 5)
  | rnd (ir : BitVec 5)
  | keccakp (nr : BitVec 5)
  | keccakf
  | rcbit
  | rcword (ir : BitVec 5)
  | pad
  | sponge
  | keccak
  | digest
deriving DecidableEq, Repr

end Sys2Proof
end

