-- ==== Sys2Proof/WellFormed.lean ====
section
/-! DEFINITION. Which commands have legal fields (30_encoding.md R77). -/

namespace Sys2Proof

/-- R77: IDX is a round index 0..23 for IOTA, RND and RCWORD, and a round count 0..24 for KECCAKP; a command without an
index is always legal. -/
def Instr.wellFormed : Instr → Bool
  | .iota ir => decide (ir.toNat ≤ 23)
  | .rnd ir => decide (ir.toNat ≤ 23)
  | .keccakp nr => decide (nr.toNat ≤ 24)
  | .rcword ir => decide (ir.toNat ≤ 23)
  | .encode => true
  | .decode => true
  | .theta => true
  | .rho => true
  | .pi => true
  | .chi => true
  | .keccakf => true
  | .rcbit => true
  | .pad => true
  | .sponge => true
  | .keccak => true
  | .digest => true

end Sys2Proof
end

