-- ==== Sys2Proof/Word.lean ====
section
/-! DEFINITION. The data types of the core: bit strings, lanes and the state array (00_scope.md R7, R12; 10_state.md R20,
R21). Only the types stand here; what is done with them is in Machine/Cube.lean. -/

namespace Sys2Proof

/-- A bit string (R7): a finite sequence of bits, index 0 first, true for 1. -/
abbrev Bits := List Bool

/-- A lane (R12, W = 64): bit z of the lane has weight 2^z. -/
abbrev Lane := BitVec 64

/-- The 64-bit value of an operand or result register (R34 to R37, LENW = 64), unsigned. -/
abbrev Word := BitVec 64

/-- The 32-bit command word written to CMD (R32, R70). -/
abbrev CmdWord := BitVec 32

/-- The state array A (R20): 25 lanes, lane number n = 5·y + x at coordinates (x, y) (R21). -/
abbrev Cube := Vector Lane 25

end Sys2Proof
end

