-- ==== Sys2Proof/Decode.lean ====
section
/-! DEFINITION. The command word (30_encoding.md): its fields, the decoder, the encoder, and the opcode map as match and
mask rows (R74). -/

namespace Sys2Proof

/-- Why a command word is refused by the decode stage (R79). Each of them raises UnsupportedVariant. -/
inductive Reject where
  /-- R76: one of CMD[31:13] is set. -/
  | reservedBits
  /-- R75: OP is not in the table. -/
  | reservedOpcode
  /-- R76: a C0 command with one of CMD[12:8] set. -/
  | reservedIndex
  /-- R77: IDX outside the range of its CI command. -/
  | indexRange
deriving DecidableEq, Repr

/-- What the decode stage makes of a command word: a command with legal fields, or a rejection by name (R78). -/
inductive Decoded where
  | command (i : Instr)
  | reject (r : Reject)
deriving DecidableEq, Repr

/-- OP (R71): CMD[7:0]. -/
def opField (w : CmdWord) : BitVec 8 := w.extractLsb' 0 8

/-- IDX (R71): CMD[12:8]. -/
def idxField (w : CmdWord) : BitVec 5 := w.extractLsb' 8 5

/-- The reserved field (R71): CMD[31:13]. -/
def reservedField (w : CmdWord) : BitVec 19 := w.extractLsb' 13 19

/-- A command of format C0 (R70): IDX must be zero (R76). -/
def decodeC0 (w : CmdWord) (i : Instr) : Decoded :=
  if idxField w = 0 then .command i else .reject .reservedIndex

/-- A command of format CI (R70): IDX must be in its range (R77). -/
def decodeCI (w : CmdWord) (f : BitVec 5 → Instr) : Decoded :=
  if (f (idxField w)).wellFormed then .command (f (idxField w)) else .reject .indexRange

/-- The opcode map (R74), read after the reserved bits have been checked. -/
def decodeOp (w : CmdWord) : Decoded :=
  match (opField w).toNat with
  | 0x01 => decodeC0 w .encode
  | 0x02 => decodeC0 w .decode
  | 0x10 => decodeC0 w .theta
  | 0x11 => decodeC0 w .rho
  | 0x12 => decodeC0 w .pi
  | 0x13 => decodeC0 w .chi
  | 0x14 => decodeCI w .iota
  | 0x15 => decodeCI w .rnd
  | 0x16 => decodeCI w .keccakp
  | 0x17 => decodeC0 w .keccakf
  | 0x20 => decodeC0 w .rcbit
  | 0x21 => decodeCI w .rcword
  | 0x30 => decodeC0 w .pad
  | 0x40 => decodeC0 w .sponge
  | 0x41 => decodeC0 w .keccak
  | 0x42 => decodeC0 w .digest
  | _ => .reject .reservedOpcode

/-- The decode stage (R79), checks (1) to (3) in the spec's order; check (4), the lengths against MAXBITS, needs the
operands and is made by each meaning. Total: every word is a command or a rejection (R78). -/
def decodeWord (w : CmdWord) : Decoded :=
  if reservedField w = 0 then decodeOp w else .reject .reservedBits

/-- Lays a command word out from its fields (R70, R71). -/
def layWord (op : BitVec 8) (idx : BitVec 5) : CmdWord := (0#19 ++ idx) ++ op

/-- The word of a command (R74). -/
def encodeWord : Instr → CmdWord
  | .encode => layWord 0x01 0
  | .decode => layWord 0x02 0
  | .theta => layWord 0x10 0
  | .rho => layWord 0x11 0
  | .pi => layWord 0x12 0
  | .chi => layWord 0x13 0
  | .iota ir => layWord 0x14 ir
  | .rnd ir => layWord 0x15 ir
  | .keccakp nr => layWord 0x16 nr
  | .keccakf => layWord 0x17 0
  | .rcbit => layWord 0x20 0
  | .rcword ir => layWord 0x21 ir
  | .pad => layWord 0x30 0
  | .sponge => layWord 0x40 0
  | .keccak => layWord 0x41 0
  | .digest => layWord 0x42 0

/-- The match value of a command's row in the opcode map (R74, spec/opcode_table.json). -/
def opcodeMatch : Instr → CmdWord
  | .encode => 0x00000001
  | .decode => 0x00000002
  | .theta => 0x00000010
  | .rho => 0x00000011
  | .pi => 0x00000012
  | .chi => 0x00000013
  | .iota _ => 0x00000014
  | .rnd _ => 0x00000015
  | .keccakp _ => 0x00000016
  | .keccakf => 0x00000017
  | .rcbit => 0x00000020
  | .rcword _ => 0x00000021
  | .pad => 0x00000030
  | .sponge => 0x00000040
  | .keccak => 0x00000041
  | .digest => 0x00000042

/-- The mask of a command's row in the opcode map (R74): 0xFFFFE0FF for format CI, every bit for C0. -/
def opcodeMask : Instr → CmdWord
  | .iota _ => 0xFFFFE0FF
  | .rnd _ => 0xFFFFE0FF
  | .keccakp _ => 0xFFFFE0FF
  | .rcword _ => 0xFFFFE0FF
  | .encode => 0xFFFFFFFF
  | .decode => 0xFFFFFFFF
  | .theta => 0xFFFFFFFF
  | .rho => 0xFFFFFFFF
  | .pi => 0xFFFFFFFF
  | .chi => 0xFFFFFFFF
  | .keccakf => 0xFFFFFFFF
  | .rcbit => 0xFFFFFFFF
  | .pad => 0xFFFFFFFF
  | .sponge => 0xFFFFFFFF
  | .keccak => 0xFFFFFFFF
  | .digest => 0xFFFFFFFF

/-- The IDX operand of a CI command (R71, R74). -/
def Instr.index : Instr → Option (BitVec 5)
  | .iota ir => some ir
  | .rnd ir => some ir
  | .keccakp nr => some nr
  | .rcword ir => some ir
  | .encode => none
  | .decode => none
  | .theta => none
  | .rho => none
  | .pi => none
  | .chi => none
  | .keccakf => none
  | .rcbit => none
  | .pad => none
  | .sponge => none
  | .keccak => none
  | .digest => none

/-- The command in a decode result, where there is one. -/
def Decoded.instr? : Decoded → Option Instr
  | .command i => some i
  | .reject _ => none

/-- The command that the decoder reads from a word of `nbits` bits, bits above `nbits` zero. A command is one 32-bit value
written to CMD (R70) and no byte order enters (R55); a word of more than 32 bits is no command. Log entry 25. -/
def decodeTableWord (nbits w : Nat) : Option Instr :=
  if nbits ≤ 32 then (decodeWord (BitVec.ofNat 32 (w % 2 ^ nbits))).instr? else none

end Sys2Proof
end

