-- ==== Sys2Proof/Machine/Cube.lean ====
section
/-! DEFINITION. The state array A: its lanes and bits (10_state.md R20, R21, R23), its flat view (R22) and the codec's two
functions (40_codec.md R90, R91). -/

namespace Sys2Proof.Machine

/-- The lane at (x, y), lane number 5·y + x (R21). Coordinates are taken modulo 5 by their type (R9, R23). -/
def Cube.lane (a : Cube) (x y : Fin 5) : Lane := a[5 * y.val + x.val]

/-- A[x][y][z] (R20): bit z of the lane at (x, y), coordinates taken modulo 5, 5 and 64 by their types (R23). -/
def Cube.bit (a : Cube) (x y : Fin 5) (z : Fin 64) : Bool := (Cube.lane a x y).getLsbD z.val

/-- The state with lane `f x y` at (x, y), written as the spec writes a table of lanes (R21): one row per y, x = 0 first. -/
def Cube.ofLanes (f : Fin 5 → Fin 5 → Lane) : Cube :=
  #v[f 0 0, f 1 0, f 2 0, f 3 0, f 4 0,
     f 0 1, f 1 1, f 2 1, f 3 1, f 4 1,
     f 0 2, f 1 2, f 2 2, f 3 2, f 4 2,
     f 0 3, f 1 3, f 2 3, f 3 3, f 4 3,
     f 0 4, f 1 4, f 2 4, f 3 4, f 4 4]

/-- The all-zero state (R42, R144). -/
def Cube.zero : Cube := Cube.ofLanes fun _ _ => 0

/-- Exclusive or of two states, lane by lane (R10). -/
def Cube.xor (a b : Cube) : Cube := Cube.ofLanes fun x y => Cube.lane a x y ^^^ Cube.lane b x y

/-- The value of a bit string whose bit i has weight 2^i (R12, R52). -/
def bitsToNat : Bits → Nat
  | [] => 0
  | b :: bs => b.toNat + 2 * bitsToNat bs

/-- The lane whose bit z is bit z of the string (R12). -/
def laneOfBits (bs : Bits) : Lane := BitVec.ofNat 64 (bitsToNat bs)

/-- encode (R90) at w = 64: A[x][y][z] is bit 64·(5·y + x) + z of the string. A bit past the string's end reads 0; the
core only gives strings of 1600 bits (R56, R93) or blocks, which R145 extends with zeros. -/
def Cube.ofFlat (s : Bits) : Cube :=
  Cube.ofLanes fun x y => laneOfBits ((s.drop (64 * (5 * y.val + x.val))).take 64)

/-- Bit i of the flat view (R22): bit i mod 64 of lane i div 64. -/
def Cube.flatBit (a : Cube) (i : Nat) : Bool := (a.getD (i / 64) 0).getLsbD (i % 64)

/-- decode (R91): the flat view S of the state, 1600 bits (R22). -/
def Cube.flat (a : Cube) : Bits := (List.range 1600).map (Cube.flatBit a)

end Sys2Proof.Machine
end

