-- ==== Sys2Proof/Machine/Working.lean ====
section
/-! DEFINITION. The types of the sequencer: PHASE, its return tag RET, and the working registers that exist only while a
command runs (10_state.md R25 to R30, R41). -/

namespace Sys2Proof.Machine

/-- PHASE (R30): IDLE whenever no command is running. -/
inductive Phase where
  | idle
  | absorb
  | round
  | squeeze
  | finish
deriving DecidableEq, Repr, Inhabited

/-- RET (R30): which of ABSORB, SQUEEZE or FINISH follows the permutation that ROUND performs. -/
inductive Return where
  | absorb
  | squeeze
  | finish
deriving DecidableEq, Repr, Inhabited

/-- The working registers (R25, R26, R28, R29, R30), hidden from the host. Between commands their values are not defined
(R41, U7): log entries 8 and 9. -/
structure Working where
  /-- IR (R28): the next round to perform, 24 when none remains. -/
  ir : BitVec 5
  /-- RET (R30). -/
  ret : Return
  /-- BLK (R29): the next block to absorb. A natural number: log entry 12. -/
  blk : Nat
  /-- NBLK (R29): the number of blocks of P. -/
  nblk : Nat
  /-- ZLEN (R29): the number of output bits produced so far. -/
  zlen : Nat
  /-- P (R29, R142): the padded input. -/
  p : Bits
  /-- r (R149): the rate, sampled when the command starts. -/
  rate : Nat
  /-- d (R149): the output length in bits, sampled when the command starts. -/
  outLen : Nat
  /-- C (R25): scratch of θ, never read; log entry 17. -/
  c : Vector Lane 5
  /-- D (R25): scratch of θ, never read; log entry 17. -/
  d : Vector Lane 5
  /-- The LFSR register (R26), loaded anew by every evaluation of rc; log entry 17. -/
  lfsr : BitVec 8
deriving DecidableEq, Repr, Inhabited

end Sys2Proof.Machine
end

