-- ==== Sys2Proof/Config.lean ====
section
/-! DEFINITION. What the spec leaves open: the free values (93_implementation_defined.md section 1), each an opaque constant
applied to a number that State holds, so that no proof knows one of them; and the default of the open parameter MAXBITS. -/

namespace Sys2Proof.Config

/-- U1 (R221, R42): IBUF bit `i` that the host has not written since the reset numbered `era`. Log entry 6. -/
opaque freeIbufBit (era i : Nat) : Bool

/-- U2 and U6 (R58, R221): OBUF bit `i` that no command has defined under the number `era`, which reset and every
string-producing command renew. Log entry 7. -/
opaque freeObufBit (era i : Nat) : Bool

/-- U7 (R41): the working registers after the command numbered `n`. Log entry 8. -/
opaque freeWorking (n : Nat) : Machine.Working

/-- RESULT where the number of bits written does not fit 64 bits (PAD with j + 2 = 2^64 only). Log entry 11. -/
opaque freeResult (n : Nat) : Word

/-- The default of MAXBITS (R6, R66): unbounded. -/
def maxBitsDefault : Option Nat := none

end Sys2Proof.Config
end

