-- ==== Sys2Proof/Machine/State.lean ====
section
/-! DEFINITION. The state of one instance of the core and of the host that drives it (10_state.md), the reasons a step can
stop, and the state after reset (R42). -/

namespace Sys2Proof.Machine

/-- A bit buffer (R38, R39, R50, R51): pairs of a bit index and the bit it holds, indices strictly rising (log entry 19).
An index that is not listed has been given no value; what it reads as is said at `State.ibufBit` and `State.obufBit`. -/
abbrev Buffer := List (Nat × Bool)

/-- The four errors (60_exceptions.md R190). They are outcomes of a command, reported in STATUS: not stops. -/
inductive ErrorKind where
  | invalidLength
  | invalidRate
  | invalidCapacity
  | unsupportedVariant
deriving DecidableEq, Repr

/-- One access of the host, or the platform's reset (R40, R59, R220). Only the accesses the host may make are here: those
of 93_implementation_defined.md U3 to U5 cannot be written down (log entry 3). -/
inductive Access where
  /-- Write CMD (R32): starts the command the word encodes. -/
  | writeCmd (w : CmdWord)
  | writeArg0 (v : Word)
  | writeArg1 (v : Word)
  | writeLen (v : Word)
  /-- Write the bits of IBUF from index `i` on (R59). -/
  | writeIbuf (i : Nat) (bits : Bits)
  /-- Write byte `k` of IBUF's byte view (R52). -/
  | writeIbufByte (k : Nat) (v : BitVec 8)
  | readStatus
  | readArg0
  | readArg1
  | readLen
  | readResult
  /-- Read `n` bits of IBUF from index `i` on. -/
  | readIbuf (i n : Nat)
  /-- Read `n` bits of OBUF from index `i` on. -/
  | readObuf (i n : Nat)
  /-- Read byte `k` of IBUF's byte view (R52). -/
  | readIbufByte (k : Nat)
  /-- Read byte `k` of OBUF's byte view (R52). -/
  | readObufByte (k : Nat)
  /-- The reset event (R220), applied by the platform. -/
  | reset
deriving DecidableEq, Repr

/-- What a host read returns (R59). -/
inductive Answer where
  | status (v : BitVec 32)
  | word (v : Word)
  | bits (v : Bits)
  | byte (v : BitVec 8)
deriving DecidableEq, Repr

/-- The state: the core's own registers and buffers, then the model's own fields. -/
structure State where
  /-- A (R20): the state array. -/
  a : Cube
  /-- CMD, register 0 (R32): the word of a CMD write the core has not yet consumed; log entry 2. -/
  cmd : Option CmdWord
  /-- STATUS, register 1 (R33). -/
  status : BitVec 32
  /-- ARG0, register 2 (R34). -/
  arg0 : Word
  /-- ARG1, register 3 (R35). -/
  arg1 : Word
  /-- LEN, register 4 (R36). -/
  len : Word
  /-- RESULT, register 5 (R37). -/
  result : Word
  /-- IBUF (R38). -/
  ibuf : Buffer
  /-- OBUF (R39). -/
  obuf : Buffer
  /-- PHASE (R30). -/
  phase : Phase
  /-- The working registers (R25, R26, R28, R29, R30). -/
  work : Working
  /-- MAXBITS (R6, R66), the machine's parameter: `none` is unbounded. No step changes it; log entry 1. -/
  maxBits : Option Nat
  /-- The accesses the host and the platform still make, in order (R61); log entry 3. -/
  host : List Access
  /-- What the host's latest read returned; log entry 3. -/
  answer : Option Answer
  /-- The number of the next free value; log entry 10. -/
  fresh : Nat
  /-- The number under which unwritten IBUF bits are free; log entry 6. -/
  ibufEra : Nat
  /-- The number under which undefined OBUF bits are free; log entry 7. -/
  obufEra : Nat
deriving DecidableEq, Repr

/-- The reasons the machine stops. -/
inductive Fault where
  /-- Raised by a host access (never by a command) that names an IBUF or OBUF bit at or above a finite MAXBITS, a bit that
  does not exist (R50, R66), or that names no bit and starts above it. Safe: the run ends where the spec says nothing. Log
  entry 20. -/
  | noSuchBufferBit
deriving DecidableEq, Repr

/-- The reasons an instruction is refused. -/
inductive Refusal where
  /-- Raised by an arm of `exec` whose instruction has no meaning yet; no arm does. Safe: no claim about a next state. -/
  | notModelled (mnemonic : String)
deriving DecidableEq, Repr

/-- The working registers at reset. The spec leaves them unspecified and never reads them before writing (R41, R42); zero is
the model's choice: log entry 9. -/
def Working.reset : Working where
  ir := 0
  ret := .absorb
  blk := 0
  nblk := 0
  zlen := 0
  p := []
  rate := 0
  outLen := 0
  c := Vector.replicate 5 0
  d := Vector.replicate 5 0
  lfsr := 0

/-- The state after reset (R42, R221): A, STATUS, ARG0, ARG1, LEN and RESULT zero, PHASE IDLE, no bit of either buffer
given a value; the working registers and the model's own fields as log entries 9 and 10 say. -/
def State.reset : State where
  a := Vector.replicate 25 0
  cmd := none
  status := 0
  arg0 := 0
  arg1 := 0
  len := 0
  result := 0
  ibuf := []
  obuf := []
  phase := .idle
  work := Working.reset
  maxBits := Config.maxBitsDefault
  host := []
  answer := none
  fresh := 1
  ibufEra := 0
  obufEra := 0

end Sys2Proof.Machine
end

