-- ==== Sys2Proof/Machine/Flags.lean ====
section
/-! DEFINITION. STATUS (10_state.md R33), the core's only flags (R44), and the error codes (60_exceptions.md R190). -/

namespace Sys2Proof.Machine

/-- ERRCODE of each error (R190). -/
def ErrorKind.code : ErrorKind → BitVec 4
  | .invalidLength => 1
  | .invalidRate => 2
  | .invalidCapacity => 3
  | .unsupportedVariant => 4

/-- The layout of STATUS (R33): bits 31:8 zero, ERRCODE in 7:4, bit 3 zero, ERR, DONE, BUSY. -/
def statusWord (busy done err : Bool) (code : BitVec 4) : BitVec 32 :=
  ((((0#24 ++ code) ++ 0#1) ++ BitVec.ofBool err) ++ BitVec.ofBool done) ++ BitVec.ofBool busy

/-- STATUS while a command runs (R33): BUSY alone. No host read sees it; log entry 24. -/
def statusBusy : BitVec 32 := statusWord true false false 0

/-- STATUS after a command that ended without error (R33). -/
def statusDone : BitVec 32 := statusWord false true false 0

/-- STATUS after a command that ended with error `e` (R33, R195). -/
def statusError (e : ErrorKind) : BitVec 32 := statusWord false true true e.code

/-- STATUS.BUSY (R33). -/
def State.busy (s : State) : Bool := s.status.getLsbD 0

/-- STATUS.DONE (R33). -/
def State.done (s : State) : Bool := s.status.getLsbD 1

/-- STATUS.ERR (R33). -/
def State.err (s : State) : Bool := s.status.getLsbD 2

/-- STATUS.ERRCODE (R33). -/
def State.errcode (s : State) : BitVec 4 := s.status.extractLsb' 4 4

end Sys2Proof.Machine
end

