-- ==== Sys2Proof/Machine/Ops.lean ====
section
/-! DEFINITION. The named operations on the buffers (20_memory.md) and the two ways a command ends: with an error
(60_exceptions.md R195) or without (10_state.md R33, R37). -/

namespace Sys2Proof.Machine

/-- The canonical form of a buffer: indices strictly rising (log entry 19). -/
abbrev Buffer.wf (b : Buffer) : Prop := b.Pairwise fun p q => p.1 < q.1

/-- The bit a buffer holds at index `i`, where one has been written. -/
def Buffer.get (b : Buffer) (i : Nat) : Option Bool := b.lookup i

/-- The string `bits` laid out from index `i` on (R51). -/
def Buffer.cells (i : Nat) : Bits → Buffer
  | [] => []
  | b :: bs => (i, b) :: Buffer.cells (i + 1) bs

/-- MemWrite (R13): the string `bits` stored from index `i` on; every other index keeps what it holds. -/
def Buffer.write (b : Buffer) (i : Nat) (bits : Bits) : Buffer :=
  b.filter (fun c => decide (c.1 < i)) ++ Buffer.cells i bits ++ b.filter (fun c => decide (i + bits.length ≤ c.1))

/-- Takes the value away from every index at or above `n` (R58). -/
def Buffer.cut (b : Buffer) (n : Nat) : Buffer := b.filter fun c => decide (c.1 < n)

/-- MemRead (R13) in one pass: the `n` bits from index `i` on, the bit at an index that holds none being `free` of that
index. On a buffer in canonical form it reads bit by bit (`Buffer.readRun_eq_map` in Laws). -/
def Buffer.readRun (free : Nat → Bool) : Buffer → Nat → Nat → Bits
  | _, _, 0 => []
  | b, i, n + 1 =>
    match b.dropWhile (fun c => decide (c.1 < i)) with
    | [] => free i :: Buffer.readRun free [] (i + 1) n
    | (k, v) :: rest =>
      if k = i then v :: Buffer.readRun free rest (i + 1) n
      else free i :: Buffer.readRun free ((k, v) :: rest) (i + 1) n

/-- IBUF[i] (R51): the bit the host last wrote there; one it has not written since reset is a free value (U1).
DESIGN CHOICE: two instances with the same era read the same free bit at the same index; log entries 6 and 23. -/
def State.ibufBit (s : State) (i : Nat) : Bool := (Buffer.get s.ibuf i).getD (Config.freeIbufBit s.ibufEra i)

/-- OBUF[i] (R51): the bit a command defined there; one that none defined is a free value (U2, U6).
DESIGN CHOICE: two instances with the same era read the same free bit at the same index; log entries 7 and 23. -/
def State.obufBit (s : State) (i : Nat) : Bool := (Buffer.get s.obuf i).getD (Config.freeObufBit s.obufEra i)

/-- MemRead(IBUF, i, n) (R13). -/
def State.ibufRun (s : State) (i n : Nat) : Bits := Buffer.readRun (Config.freeIbufBit s.ibufEra) s.ibuf i n

/-- MemRead(OBUF, i, n) (R13). -/
def State.obufRun (s : State) (i n : Nat) : Bits := Buffer.readRun (Config.freeObufBit s.obufEra) s.obuf i n

/-- The bits of a byte, bit 0 first (R52, R173). -/
def byteBits (v : BitVec 8) : Bits := (List.range 8).map v.getLsbD

/-- The byte of eight bits, the bit of lower index the less significant (R52). -/
def bitsByte (bs : Bits) : BitVec 8 :=
  BitVec.ofNat 8 (bs.foldr (fun b n => b.toNat + 2 * n) 0)

/-- MAXBITS is legal: unbounded or at least 1600 (R6, R66). -/
def State.maxBitsLegal (s : State) : Bool :=
  match s.maxBits with
  | none => true
  | some m => decide (1600 ≤ m)

/-- A length of `n` bits exceeds MAXBITS (R66); never so when MAXBITS is unbounded. -/
def State.exceeds (s : State) (n : Nat) : Bool :=
  match s.maxBits with
  | none => false
  | some m => decide (m < n)

/-- Half of `c` exceeds MAXBITS (R66 for an output of c/2 bits), without rounding the half of an odd `c`: log entry 13. -/
def State.halfExceeds (s : State) (c : Nat) : Bool :=
  match s.maxBits with
  | none => false
  | some m => decide (2 * m < c)

/-- `raise E` (R195): STATUS says that the command has ended with error E, and nothing else changes. There is no handler and
nothing is saved, so there is no return either (R195, R198). -/
def State.raise (s : State) (e : ErrorKind) : State := { s with status := statusError e }

/-- The end of a command without error: RESULT is written (R37), STATUS is overwritten whole (R33, R198), and the working
registers cease to be defined (R41, U7; log entry 8). -/
def State.retire (s : State) (result : Word) : State :=
  { s with
    status := statusDone
    result := result
    work := Config.freeWorking s.fresh
    fresh := s.fresh + 1 }

/-- A count of bits as RESULT shows it (R37): the number itself where it fits 64 bits, else a free value (log entry 11). -/
def State.countWord (s : State) (n : Nat) : Word :=
  if n < 2 ^ 64 then BitVec.ofNat 64 n else Config.freeResult s.fresh

/-- The output string of a command (R58): OBUF holds it from index 0 on, and every later bit becomes unspecified (U6). -/
def State.emit (s : State) (out : Bits) : State :=
  { s with obuf := Buffer.cells 0 out, obufEra := s.fresh }

end Sys2Proof.Machine
end

