-- ==== Sys2Proof/Machine/Operands.lean ====
section
/-! DEFINITION. The operands of the commands (30_encoding.md R72, R73): unsigned, at full value, without wrap-around, as the
registers and IBUF hold them when CMD is written (R63). -/

namespace Sys2Proof.Machine

/-- IDX as an operand (R73): zero-extended. -/
def idxOperand (idx : BitVec 5) : Nat := idx.toNat

/-- ARG0 as an operand: the rate, the capacity, x or t (R34). -/
def State.arg0Operand (s : State) : Nat := s.arg0.toNat

/-- ARG1 as an operand: the output length in bits (R35). -/
def State.arg1Operand (s : State) : Nat := s.arg1.toNat

/-- LEN as an operand, in the command's own unit (R36). -/
def State.lenOperand (s : State) : Nat := s.len.toNat

/-- DIGEST's input length in bits (R73, R175): 8·LEN, formed without wrap-around. -/
def State.lenBytesOperand (s : State) : Nat := 8 * s.len.toNat

/-- The input string of a command of `n` input bits: IBUF[0..n-1] (R57). -/
def State.inputBits (s : State) (n : Nat) : Bits := s.ibufRun 0 n

/-- The domain-separation suffix (R170): bit 0 is 0 and bit 1 is 1. -/
def domainSuffix : Bits := [false, true]

end Sys2Proof.Machine
end

