-- ==== Sys2Proof/Machine/Codec.lean ====
section
/-! DEFINITION. The state codec's commands ENCODE and DECODE (40_codec.md R93, R94). -/

namespace Sys2Proof.Machine

/-- ENCODE (R93): A is loaded from IBUF[0..1599]; any LEN but 1600 is InvalidLength, and a LEN above MAXBITS is
UnsupportedVariant first (R197). -/
def execEncode (s : State) : Host.Outcome State Fault Refusal :=
  if s.exceeds s.lenOperand then .next (s.raise .unsupportedVariant)
  else if s.lenOperand % 25 ≠ 0 then .next (s.raise .invalidLength)
  else if s.lenOperand ≠ 1600 then .next (s.raise .invalidLength)
  else .next (State.retire { s with a := Cube.ofFlat (s.inputBits 1600) } 0)

/-- DECODE (R94): OBUF[0..1599] is A's flat view. Its 1600 bits fit every legal MAXBITS (R66). -/
def execDecode (s : State) : Host.Outcome State Fault Refusal :=
  if s.exceeds 1600 then .next (s.raise .unsupportedVariant)
  else .next ((s.emit (Cube.flat s.a)).retire 1600)

end Sys2Proof.Machine
end

