-- ==== Sys2Proof/Machine/Padding.lean ====
section
/-! DEFINITION. The padding unit (44_padding.md): pad10*1 and the command PAD. -/

namespace Sys2Proof.Machine

/-- j (R160, R162): the non-negative (-m - 2) mod x, formed without negative numbers and without wrap-around. -/
def padZeros (x m : Nat) : Nat := (x - (m + 2) % x) % x

/-- pad(x, m) (R160): 1, then j zeros, then 1. -/
def pad (x m : Nat) : Bits := true :: (List.replicate (padZeros x m) false ++ [true])

/-- PAD (R162): ARG0 = x, LEN = m; x = 0 is InvalidRate (R163), a pad longer than MAXBITS is UnsupportedVariant. LEN is no
input length here, since IBUF is not read: log entry 21. -/
def execPad (s : State) : Host.Outcome State Fault Refusal :=
  if s.arg0Operand = 0 then .next (s.raise .invalidRate)
  else if s.exceeds (padZeros s.arg0Operand s.lenOperand + 2) then .next (s.raise .unsupportedVariant)
  else .next ((s.emit (pad s.arg0Operand s.lenOperand)).retire
    (s.countWord (padZeros s.arg0Operand s.lenOperand + 2)))

end Sys2Proof.Machine
end

