-- ==== Sys2Proof/Machine/RoundConstant.lean ====
section
/-! DEFINITION. The round-constant generator (42_round_constant.md): the LFSR, rc, the constant words, and RCBIT and
RCWORD. -/

namespace Sys2Proof.Machine

/-- One iteration of the LFSR, on the register as a byte whose bit i is R[i] (R131). -/
def lfsrStep (v : BitVec 8) : BitVec 8 := (v <<< 1) ^^^ (if v.getLsbD 7 then 0x71 else 0)

/-- The LFSR register after `n` iterations from `10000000` (R130). -/
def lfsr : Nat → BitVec 8
  | 0 => 0x01
  | n + 1 => lfsrStep (lfsr n)

/-- rc(t) (R130). -/
def rc (t : Nat) : Bool := if t % 255 = 0 then true else (lfsr (t % 255)).getLsbD 0

/-- RCW[ir] (R134), generated: rc(j + 7·ir) at bit 2^j - 1 for j = 0..6, every other bit 0. R27 and R137 allow a table or
the generator; log entry 16. -/
def rcw (ir : Nat) : Lane :=
  (List.range 7).foldl (fun v j => v ||| (BitVec.ofBool (rc (j + 7 * ir))).setWidth 64 <<< (2 ^ j - 1)) 0

/-- RCBIT (R135): RESULT is rc(ARG0), zero-extended. -/
def execRcbit (s : State) : Host.Outcome State Fault Refusal :=
  .next (s.retire (if rc s.arg0Operand then 1 else 0))

/-- RCWORD (R136): RESULT is RCW[IDX]; UnsupportedVariant when IDX is above 23 (log entry 18). -/
def execRcword (ir : BitVec 5) (s : State) : Host.Outcome State Fault Refusal :=
  if 23 < idxOperand ir then .next (s.raise .unsupportedVariant)
  else .next (s.retire (rcw (idxOperand ir)))

end Sys2Proof.Machine
end

