-- ==== Sys2Proof/Machine/Permutation.lean ====
section
/-! DEFINITION. The permutation engine (41_permutation.md): the step mappings in the lane form of R122, the round, the
permutations, and the commands THETA to KECCAKF. The bit forms are normative; that the lane forms agree with them is
obligations (log entry 15). -/

namespace Sys2Proof.Machine

/-- θ's column parities Cx[x] (R102). -/
def thetaC (a : Cube) (x : Fin 5) : Lane :=
  Cube.lane a x 0 ^^^ Cube.lane a x 1 ^^^ Cube.lane a x 2 ^^^ Cube.lane a x 3 ^^^ Cube.lane a x 4

/-- θ's Dx[x] (R102): the left neighbour's column at the same z, the right neighbour's at z - 1. -/
def thetaD (a : Cube) (x : Fin 5) : Lane := thetaC a (x - 1) ^^^ (thetaC a (x + 1)).rotateLeft 1

/-- θ (R102). -/
def theta (a : Cube) : Cube := Cube.ofLanes fun x y => Cube.lane a x y ^^^ thetaD a x

/-- ρ's offsets modulo 64 by lane number, the table RHO[x][y] of R106. -/
def rhoOffsets : List Nat :=
  [0, 1, 62, 28, 27,
   36, 44, 6, 55, 20,
   3, 10, 43, 25, 39,
   41, 45, 15, 21, 8,
   18, 2, 61, 56, 14]

/-- RHO[x][y] (R106). -/
def rhoOffset (x y : Fin 5) : Nat := rhoOffsets.getD (5 * y.val + x.val) 0

/-- ρ (R106): each lane rotated toward higher z (R105). -/
def rho (a : Cube) : Cube := Cube.ofLanes fun x y => (Cube.lane a x y).rotateLeft (rhoOffset x y)

/-- π (R108): the lane at (x, y) takes the lane at (x + 3y, x). -/
def pi (a : Cube) : Cube := Cube.ofLanes fun x y => Cube.lane a (x + 3 * y) x

/-- χ (R111, lane form). -/
def chi (a : Cube) : Cube :=
  Cube.ofLanes fun x y => Cube.lane a x y ^^^ (~~~ Cube.lane a (x + 1) y &&& Cube.lane a (x + 2) y)

/-- ι (R113, lane form): RCW[ir] into lane (0, 0). -/
def iota (a : Cube) (ir : Nat) : Cube :=
  Cube.ofLanes fun x y => if x = 0 ∧ y = 0 then Cube.lane a x y ^^^ rcw ir else Cube.lane a x y

/-- One round (R115): θ, then ρ, π, χ, and ι last. -/
def rnd (a : Cube) (ir : Nat) : Cube := iota (chi (pi (rho (theta a)))) ir

/-- keccak_p_state (R117): the rounds 24 - nr to 23 in increasing order. -/
def keccakPState (a : Cube) (nr : Nat) : Cube := (List.range' (24 - nr) nr).foldl rnd a

/-- keccak_f_state (R119): all 24 rounds. -/
def keccakFState (a : Cube) : Cube := keccakPState a 24

/-- The ROUND row with IR < 24 (R123, R149): one round with index IR, then IR + 1. -/
def State.roundStep (s : State) : State :=
  { s with a := rnd s.a s.work.ir.toNat, work := { s.work with ir := s.work.ir + 1 } }

/-- The loop of R123: while IR < 24, a round. -/
def State.roundLoop : Nat → State → State
  | 0, s => s
  | n + 1, s => if s.work.ir.toNat < 24 then State.roundLoop n s.roundStep else s

/-- A permutation of `nr` rounds as R123 sequences it: IR starts at 24 - nr; at most 24 rounds follow. -/
def State.permute (s : State) (nr : Nat) : State :=
  State.roundLoop 24 { s with work := { s.work with ir := BitVec.ofNat 5 (24 - nr) } }

/-- The step mapping `f` as a command: A changes, and the command ends with RESULT 0 (R37). -/
def State.mapA (s : State) (f : Cube → Cube) : State := State.retire { s with a := f s.a } 0

/-- THETA (R103). -/
def execTheta (s : State) : Host.Outcome State Fault Refusal := .next (s.mapA theta)

/-- RHO (R107). -/
def execRho (s : State) : Host.Outcome State Fault Refusal := .next (s.mapA rho)

/-- PI (R110). -/
def execPi (s : State) : Host.Outcome State Fault Refusal := .next (s.mapA pi)

/-- CHI (R112). -/
def execChi (s : State) : Host.Outcome State Fault Refusal := .next (s.mapA chi)

/-- IOTA (R114): UnsupportedVariant when IDX is above 23 (log entry 18). -/
def execIota (ir : BitVec 5) (s : State) : Host.Outcome State Fault Refusal :=
  if 23 < idxOperand ir then .next (s.raise .unsupportedVariant)
  else .next (s.mapA fun a => iota a (idxOperand ir))

/-- RND (R116): the index is the command's IDX, not IR (R230); UnsupportedVariant when it is above 23 (log entry 18). -/
def execRnd (ir : BitVec 5) (s : State) : Host.Outcome State Fault Refusal :=
  if 23 < idxOperand ir then .next (s.raise .unsupportedVariant)
  else .next (s.mapA fun a => rnd a (idxOperand ir))

/-- KECCAKP (R118): the last IDX rounds; UnsupportedVariant when IDX is above 24 (log entry 18). -/
def execKeccakp (nr : BitVec 5) (s : State) : Host.Outcome State Fault Refusal :=
  if 24 < idxOperand nr then .next (s.raise .unsupportedVariant)
  else .next ((s.permute (idxOperand nr)).retire 0)

/-- KECCAKF (R120). -/
def execKeccakf (s : State) : Host.Outcome State Fault Refusal := .next ((s.permute 24).retire 0)

end Sys2Proof.Machine
end

