-- ==== Sys2Proof/Machine/Sponge.lean ====
section
/-! DEFINITION. The sponge controller (43_sponge.md section 2) as the state machine of R149, and the command SPONGE (R150).
The functions of section 1 that it is proved to compute are in Machine/SpongeFunction.lean. -/

namespace Sys2Proof.Machine

/-- The phase that a return tag names (R30). -/
def Return.phase : Return → Phase
  | .absorb => .absorb
  | .squeeze => .squeeze
  | .finish => .finish

/-- The IDLE row of R149: the command's checks have passed, `r`, `d` and the input `n` are sampled. STATUS shows BUSY while
the controller runs (R33, log entry 24). -/
def State.startSponge (s : State) (r d : Nat) (n : Bits) : State :=
  { s with
    a := Cube.zero
    status := statusBusy
    phase := .absorb
    work := { s.work with
      p := n ++ pad r n.length
      nblk := (n ++ pad r n.length).length / r
      blk := 0
      zlen := 0
      rate := r
      outLen := d } }

/-- Block BLK of P, zero-extended to 1600 bits by `Cube.ofFlat` (R143, R145). -/
def State.currentBlock (s : State) : Bits := (s.work.p.drop (s.work.blk * s.work.rate)).take s.work.rate

/-- The ABSORB row with BLK < NBLK (R149): the block is XORed into the rate part, and a permutation follows. -/
def State.absorbBlock (s : State) : State :=
  { s with
    a := Cube.xor s.a (Cube.ofFlat s.currentBlock)
    phase := .round
    work := { s.work with blk := s.work.blk + 1, ir := 0, ret := .absorb } }

/-- The SQUEEZE row with ZLEN + r < d (R149): a whole block goes to OBUF, and a permutation follows. -/
def State.squeezeBlock (s : State) : State :=
  { s with
    obuf := Buffer.write s.obuf s.work.zlen ((Cube.flat s.a).take s.work.rate)
    phase := .round
    work := { s.work with zlen := s.work.zlen + s.work.rate, ir := 0, ret := .squeeze } }

/-- The SQUEEZE row with ZLEN + r >= d (R149): the first d - ZLEN bits of the last block go to OBUF. -/
def State.squeezeLast (s : State) : State :=
  { s with
    obuf := Buffer.write s.obuf s.work.zlen ((Cube.flat s.a).take (s.work.outLen - s.work.zlen))
    phase := .finish
    work := { s.work with zlen := s.work.zlen + s.work.rate } }

/-- The FINISH row (R149, R152): A is zeroed, the command ends with RESULT d, and the bits of OBUF at d and above are not
defined (R58). -/
def State.finishSponge (s : State) : State :=
  State.retire
    { s with
      a := Cube.zero
      obuf := Buffer.cut s.obuf s.work.outLen
      obufEra := s.fresh
      phase := .idle }
    (s.countWord s.work.outLen)

/-- One transition of the core agent (R149). In IDLE it does nothing; the IDLE row is `State.startSponge`. -/
def State.coreStep (s : State) : State :=
  match s.phase with
  | .idle => s
  | .absorb => if s.work.blk < s.work.nblk then s.absorbBlock else { s with phase := .squeeze }
  | .round => if s.work.ir.toNat < 24 then s.roundStep else { s with phase := s.work.ret.phase }
  | .squeeze => if s.work.zlen + s.work.rate < s.work.outLen then s.squeezeBlock else s.squeezeLast
  | .finish => s.finishSponge

/-- At most `n` transitions, stopping in IDLE. -/
def State.coreRun : Nat → State → State
  | 0, s => s
  | n + 1, s => if s.phase = .idle then s else State.coreRun n s.coreStep

/-- The number of output blocks k = max(1, ceil(d / r)) (R148). -/
def outputBlocks (r d : Nat) : Nat := max 1 ((d + r - 1) / r)

/-- The number of transitions from the start to IDLE (R149, R154): 26 for each of the n + k - 1 permutations with the row
that starts it and the row that leaves ROUND, one into SQUEEZE, one into FINISH, one into IDLE. -/
def transitionBound (r d nblk : Nat) : Nat := 26 * (nblk + outputBlocks r d - 1) + 3

/-- A sponge-family command whose checks have passed: from IDLE back to IDLE, one atomic command to the host (R149). -/
def State.runSponge (s : State) (r d : Nat) (n : Bits) : State :=
  State.coreRun (transitionBound r d ((n ++ pad r n.length).length / r)) (s.startSponge r d n)

/-- SPONGE (R150): ARG0 = rate, ARG1 = output length, LEN = input length in bits. A length above MAXBITS is
UnsupportedVariant first (R66, R197); a rate outside 1..1599 is InvalidRate (R141). -/
def execSponge (s : State) : Host.Outcome State Fault Refusal :=
  if s.exceeds s.lenOperand || s.exceeds s.arg1Operand then .next (s.raise .unsupportedVariant)
  else if s.arg0Operand = 0 ∨ 1600 ≤ s.arg0Operand then .next (s.raise .invalidRate)
  else .next (s.runSponge s.arg0Operand s.arg1Operand (s.inputBits s.lenOperand))

end Sys2Proof.Machine
end

