-- ==== Sys2Proof/Machine/EntryPoints.lean ====
section
/-! DEFINITION. The digest entry points KECCAK and DIGEST (45_entry_points.md). -/

namespace Sys2Proof.Machine

/-- The domain-separated routine of R170 on a message `n` at capacity `c`: rate 1600 - c, the suffix appended, c/2 bits. -/
def State.runKeccak (s : State) (c : Nat) (n : Bits) : State := s.runSponge (1600 - c) (c / 2) (n ++ domainSuffix)

/-- KECCAK (R172): ARG0 = capacity, LEN = message length in bits. -/
def execKeccak (s : State) : Host.Outcome State Fault Refusal :=
  if s.exceeds (s.lenOperand + 2) || s.halfExceeds s.arg0Operand then .next (s.raise .unsupportedVariant)
  else if s.arg0Operand % 2 = 1 ∨ 1600 ≤ s.arg0Operand then .next (s.raise .invalidCapacity)
  else if s.arg0Operand = 0 then .next (s.raise .invalidRate)
  else .next (s.runKeccak s.arg0Operand (s.inputBits s.lenOperand))

/-- DIGEST (R175): ARG0 = capacity, a multiple of 16 (R176), LEN = message length in bytes. Its output length is checked
against MAXBITS as every command's is (R66; log entry 14). -/
def execDigest (s : State) : Host.Outcome State Fault Refusal :=
  if s.exceeds (s.lenBytesOperand + 2) || s.halfExceeds s.arg0Operand then .next (s.raise .unsupportedVariant)
  else if s.arg0Operand % 16 ≠ 0 ∨ 1600 ≤ s.arg0Operand then .next (s.raise .invalidCapacity)
  else if s.arg0Operand = 0 then .next (s.raise .invalidRate)
  else .next (s.runKeccak s.arg0Operand (s.inputBits s.lenBytesOperand))

end Sys2Proof.Machine
end

