-- ==== Sys2Proof/Machine/Dispatch.lean ====
section
/-! DEFINITION. One arm per command, each one direct call of its meaning (30_encoding.md R74). -/

namespace Sys2Proof.Machine

def exec (i : Instr) (s : State) : Host.Outcome State Fault Refusal :=
  match i with
  | .encode => Sys2Proof.Machine.execEncode s
  | .decode => Sys2Proof.Machine.execDecode s
  | .theta => Sys2Proof.Machine.execTheta s
  | .rho => Sys2Proof.Machine.execRho s
  | .pi => Sys2Proof.Machine.execPi s
  | .chi => Sys2Proof.Machine.execChi s
  | .iota ir => Sys2Proof.Machine.execIota ir s
  | .rnd ir => Sys2Proof.Machine.execRnd ir s
  | .keccakp nr => Sys2Proof.Machine.execKeccakp nr s
  | .keccakf => Sys2Proof.Machine.execKeccakf s
  | .rcbit => Sys2Proof.Machine.execRcbit s
  | .rcword ir => Sys2Proof.Machine.execRcword ir s
  | .pad => Sys2Proof.Machine.execPad s
  | .sponge => Sys2Proof.Machine.execSponge s
  | .keccak => Sys2Proof.Machine.execKeccak s
  | .digest => Sys2Proof.Machine.execDigest s

end Sys2Proof.Machine
end

