-- ==== Sys2Proof/Machine/Host.lean ====
section
/-! DEFINITION. What the host and the platform do to the core (10_state.md R40, 20_memory.md R59, R61,
70_reset_and_hazards.md R220, R224), and the script notation for it (30_encoding.md R80, R81). -/

namespace Sys2Proof.Machine

/-- The reset event (R220, R221): the whole state becomes that of R42, and both buffers, the working registers among the
rest, are unspecified anew. MAXBITS is the machine's own, and what the host still does is the host's: log entry 22. -/
def State.resetEvent (s : State) : State :=
  { State.reset with
    maxBits := s.maxBits
    host := s.host
    work := Config.freeWorking s.fresh
    fresh := s.fresh + 1
    ibufEra := s.fresh
    obufEra := s.fresh }

/-- A host read returns a value and has no other effect (R59). -/
def State.reply (s : State) (v : Answer) : State := { s with answer := some v }

/-- A host access to buffer bits below index `n`: they exist unless MAXBITS is finite and below `n`, and then the access
faults. DESIGN CHOICE: an access of no bits at all that starts above a finite MAXBITS faults too. Log entry 20. -/
def State.ifBits (s : State) (n : Nat) (t : State) : Host.Outcome State Fault Refusal :=
  if s.exceeds n then .fault .noSuchBufferBit else .next t

/-- One access (R40, R59). A write of CMD leaves the word for the core, which consumes it in the very next step (R32, R63). -/
def Access.perform (x : Access) (s : State) : Host.Outcome State Fault Refusal :=
  match x with
  | .writeCmd w => .next { s with cmd := some w }
  | .writeArg0 v => .next { s with arg0 := v }
  | .writeArg1 v => .next { s with arg1 := v }
  | .writeLen v => .next { s with len := v }
  | .writeIbuf i bits => s.ifBits (i + bits.length) { s with ibuf := Buffer.write s.ibuf i bits }
  | .writeIbufByte k v => s.ifBits (8 * k + 8) { s with ibuf := Buffer.write s.ibuf (8 * k) (byteBits v) }
  | .readStatus => .next (s.reply (.status s.status))
  | .readArg0 => .next (s.reply (.word s.arg0))
  | .readArg1 => .next (s.reply (.word s.arg1))
  | .readLen => .next (s.reply (.word s.len))
  | .readResult => .next (s.reply (.word s.result))
  | .readIbuf i n => s.ifBits (i + n) (s.reply (.bits (s.ibufRun i n)))
  | .readObuf i n => s.ifBits (i + n) (s.reply (.bits (s.obufRun i n)))
  | .readIbufByte k => s.ifBits (8 * k + 8) (s.reply (.byte (bitsByte (s.ibufRun (8 * k) 8))))
  | .readObufByte k => s.ifBits (8 * k + 8) (s.reply (.byte (bitsByte (s.obufRun (8 * k) 8))))
  | .reset => .next s.resetEvent

/-- A host write of `v` to register number `n` (R31, R40); STATUS, RESULT and numbers above 5 are accesses the host never
makes (R224). CMD is 32 bits wide (R32) and `v` 64. DESIGN CHOICE: of a value wider than 32 bits, of which the spec does not
speak, CMD takes the low 32 bits; unsafe, log entry 25. -/
def regWrite (n : Nat) (v : Word) : Option Access :=
  match n with
  | 0 => some (.writeCmd (v.setWidth 32))
  | 2 => some (.writeArg0 v)
  | 3 => some (.writeArg1 v)
  | 4 => some (.writeLen v)
  | _ => none

/-- A host read of register number `n` (R31, R40): CMD and numbers above 5 are accesses the host never makes (R224). -/
def regRead (n : Nat) : Option Access :=
  match n with
  | 1 => some .readStatus
  | 2 => some .readArg0
  | 3 => some .readArg1
  | 4 => some .readLen
  | 5 => some .readResult
  | _ => none

/-- A command line of a script (R80): write the registers it names, then CMD with the encoded word. A register it does not
name (`none`) is not written. -/
def scriptLine (i : Instr) (arg0 arg1 len : Option Word) : List Access :=
  (arg0.map Access.writeArg0).toList ++ (arg1.map Access.writeArg1).toList ++ (len.map Access.writeLen).toList
    ++ [.writeCmd (encodeWord i)]

/-- SHA3_256 (R81): DIGEST cap=512. DESIGN CHOICE: a line with the alias may name LEN as DIGEST's own line may, and without it
LEN stays as the host last wrote it; log entry 26. -/
def scriptSha3_256 (len : Option Word) : List Access := scriptLine .digest (some 512) none len

/-- SHA3_512 (R81): DIGEST cap=1024, LEN as for SHA3_256; log entry 26. -/
def scriptSha3_512 (len : Option Word) : List Access := scriptLine .digest (some 1024) none len

end Sys2Proof.Machine
end

