-- ==== Sys2Proof/Machine/Issue.lean ====
section
/-! DEFINITION. What the next step does (20_memory.md R61, R63): the command consumed, the command issued, or the host's next
access. -/

namespace Sys2Proof.Machine

/-- The core consumes the word written to CMD (R32, R63): a command with legal fields is executed, every other word raises
UnsupportedVariant and changes nothing but STATUS (R75 to R79, R194). -/
def issueWord (w : CmdWord) (s : State) : Host.Outcome State Fault Refusal :=
  match decodeWord w with
  | .command i => exec i s
  | .reject _ => .next (s.raise .unsupportedVariant)

/-- The agents in IDLE: a word written to CMD is consumed before the host goes on (R61); else the host makes its next access;
with none left the core holds everything unchanged (R209). Log entry 4. -/
def idleStep (s : State) : Host.Outcome State Fault Refusal :=
  match s.cmd with
  | some w => issueWord w { s with cmd := none }
  | none =>
    match s.host with
    | [] => .next s
    | x :: rest => x.perform { s with host := rest }

/-- One step of the system: the core alone moves while a command runs (R61), and in IDLE the agents as `idleStep` says. -/
def agentStep (s : State) : Host.Outcome State Fault Refusal :=
  if s.phase = .idle then idleStep s else .next s.coreStep

/-- `s` with word `w` written to CMD and the core in IDLE to consume it (R32; log entry 5). -/
def State.withCmd (s : State) (w : CmdWord) : State := { s with cmd := some w, phase := .idle }

end Sys2Proof.Machine
end

