-- ==== Sys2Proof/Machine/Step.lean ====
section
/-! DEFINITION. The step, and where the next instruction is placed (log entries 4, 5 and 25). -/

namespace Sys2Proof.Machine

/-- One step of the machine. -/
def step (s : State) : Host.Outcome State Fault Refusal := agentStep s

/-- `s` with the command word of `nbits` bits written to CMD (R32), so that the very next step consumes it. The core fetches
nothing (R50, R63): this stands for the host's write. DESIGN CHOICE: of more than 32 bits, which are no command (R70), the low
32 are placed; log entry 25. -/
def State.withFetchWord (s : State) (nbits w : Nat) : State := s.withCmd (BitVec.ofNat 32 (w % 2 ^ nbits))

end Sys2Proof.Machine
end

