-- ==== Sys2Proof/Machine/SpongeFunction.lean ====
section
/-! DEFINITION. The functions that the sponge-family commands compute, on bit strings and as the source states them
(43_sponge.md R140 to R147, 45_entry_points.md R170, R173, R174). No command calls them: the controller of R149 performs
them, and claims compare the two. -/

namespace Sys2Proof.Machine

/-- Exclusive or of two bit strings of equal length (R7). -/
def xorBits (s t : Bits) : Bits := List.zipWith (fun a b => a ^^ b) s t

/-- f on 1600-bit strings (R121, R151): decode after the full permutation after encode. -/
def keccakFBits (s : Bits) : Bits := Cube.flat (keccakFState (Cube.ofFlat s))

/-- The `rate`-bit blocks of P in order (R143). -/
def spongeBlocks (rate : Nat) (p : Bits) : List Bits :=
  (List.range (p.length / rate)).map fun i => (p.drop (i * rate)).take rate

/-- Absorbing (R144, R145): from 1600 zeros, each block zero-extended, exclusive or first and `f` second. -/
def spongeAbsorb (f : Bits → Bits) (rate : Nat) (p : Bits) : Bits :=
  (spongeBlocks rate p).foldl (fun s b => f (xorBits s (b ++ List.replicate (1600 - rate) false)))
    (List.replicate 1600 false)

/-- The loop of R146: append the first `rate` bits of S to Z, leave once Z is long enough, else apply `f`. The first
argument bounds the rounds of the loop. -/
def squeezeLoop (f : Bits → Bits) (rate d : Nat) : Nat → Bits → Bits → Bits
  | 0, _, z => z
  | n + 1, s, z =>
    if d ≤ (z ++ s.take rate).length then z ++ s.take rate
    else squeezeLoop f rate d n (f s) (z ++ s.take rate)

/-- sponge (R140 to R147), generic in `f` and `padFn` (R151). At a positive rate d + 1 rounds of the loop are enough. -/
def sponge (f : Bits → Bits) (padFn : Nat → Nat → Bits) (rate : Nat) (input : Bits) (d : Nat) : Bits :=
  (squeezeLoop f rate d (d + 1) (spongeAbsorb f rate (input ++ padFn rate input.length)) []).take d

/-- The sponge of this hardware (R151): f the full permutation, pad pad10*1. -/
def keccakSponge (rate : Nat) (input : Bits) (d : Nat) : Bits := sponge keccakFBits pad rate input d

/-- keccak(c, N) (R170). -/
def keccakFunction (c : Nat) (n : Bits) : Bits := keccakSponge (1600 - c) (n ++ domainSuffix) (c / 2)

/-- A message of bytes as a bit string (R173). -/
def bytesToBits (msg : List (BitVec 8)) : Bits := msg.flatMap byteBits

/-- The first `n` bytes of a bit string (R52). -/
def packBytes (n : Nat) (bs : Bits) : List (BitVec 8) :=
  (List.range n).map fun k => bitsByte ((bs.drop (8 * k)).take 8)

/-- sha3_like_digest(message, capacity) (R174): the bits of keccak packed into c/16 bytes. -/
def sha3LikeDigest (msg : List (BitVec 8)) (c : Nat) : List (BitVec 8) :=
  packBytes (c / 16) (keccakFunction c (bytesToBits msg))

end Sys2Proof.Machine
end

