-- ==== Sys2Proof/Machine/System.lean ====
section
/-! DEFINITION. Several independent instances of the core (60_exceptions.md R207; NINST of 00_scope.md R6, log entry 23). -/

namespace Sys2Proof.Machine

/-- The instances of a system, each with its own state; instances have no identifiers of their own (R207), so
the free values of two of them coincide where their numbers do (DESIGN CHOICE, log entry 23). -/
abbrev System := List State

/-- One step of instance `k`; with no such instance nothing happens. DESIGN CHOICE: where that step is a fault (a host access
to a buffer bit above a finite MAXBITS) or a refusal, the step of the whole system is that stop, so the run of every other
instance ends with it, which the spec does not say; safe, log entry 23. -/
def System.stepAt (sys : System) (k : Nat) : Host.Outcome System Fault Refusal :=
  match sys[k]? with
  | none => .next sys
  | some s =>
    match step s with
    | .next t => .next (sys.set k t)
    | .fault r => .fault r
    | .refused r => .refused r

end Sys2Proof.Machine
end

