-- ==== Sys2Proof/Safety.lean ====
section
/-! DEFINITION. The terms the claims use: the invariant of a run, what a command leaves alone, how a command ends, and the
source's own bit-by-bit forms that the machine's lane forms are compared with. -/

namespace Sys2Proof.Machine

/-- What holds of the state between any two steps: the core is in IDLE (R30), STATUS is one of the six values the core ever
writes or resets to (R33, R190), MAXBITS is legal (R6), both buffers are in canonical form and within MAXBITS (R50, R66),
and OBUF is defined on an initial segment (R39, R58). -/
structure Invariant (s : State) : Prop where
  idle : s.phase = .idle
  status : s.status ∈ [0x00#32, 0x02#32, 0x16#32, 0x26#32, 0x36#32, 0x46#32]
  maxBits : s.maxBitsLegal = true
  ibufWf : Buffer.wf s.ibuf
  ibufFits : ∀ c ∈ s.ibuf, s.exceeds (c.1 + 1) = false
  obufSegment : s.obuf = Buffer.cells 0 (s.obuf.map Prod.snd)
  obufFits : ∀ c ∈ s.obuf, s.exceeds (c.1 + 1) = false

/-- A command leaves the host's side alone (R34 to R36, R38, R57): the operand registers, every bit of IBUF, CMD as it was
after its consumption, the parameter MAXBITS, and what belongs to the host itself. -/
structure KeepsHostSide (s t : State) : Prop where
  cmd : t.cmd = s.cmd
  arg0 : t.arg0 = s.arg0
  arg1 : t.arg1 = s.arg1
  len : t.len = s.len
  ibuf : ∀ i, t.ibufBit i = s.ibufBit i
  maxBits : t.maxBits = s.maxBits
  host : t.host = s.host
  answer : t.answer = s.answer

/-- Every bit of OBUF reads as before (R58). -/
def KeepsObuf (s t : State) : Prop := ∀ i, t.obufBit i = s.obufBit i

/-- A command has ended without error (R33, R37): STATUS is DONE alone, RESULT is `v`. -/
structure EndsOk (t : State) (v : Word) : Prop where
  status : t.status = 0x00000002#32
  result : t.result = v

/-- OBUF[0..n-1] holds the string `out` of `n` bits (R58). -/
def ObufHolds (t : State) (out : Bits) : Prop := ∀ i (h : i < out.length), t.obufBit i = out[i]

/-- The nine bits `[0] ++ R` of one LFSR iteration and the four exclusive ors with R[8] (R130), bit by bit. -/
def lfsrBitsStep (r : Bits) : Bits :=
  let s := false :: r
  let top := s.getD 8 false
  [s.getD 0 false ^^ top, s.getD 1 false, s.getD 2 false, s.getD 3 false,
   s.getD 4 false ^^ top, s.getD 5 false ^^ top, s.getD 6 false ^^ top, s.getD 7 false]

/-- The register of R130 as a bit string after `n` iterations from `10000000`. -/
def lfsrBits : Nat → Bits
  | 0 => [true, false, false, false, false, false, false, false]
  | n + 1 => lfsrBitsStep (lfsrBits n)

/-- rc(t) as R130's procedure gives it. -/
def rcBits (t : Nat) : Bool := if t % 255 = 0 then true else (lfsrBits (t % 255)).getD 0 false

/-- The lane that R104's walk visits at `t`: from (1, 0), each time (y, 2x + 3y). -/
def rhoWalk : Nat → Fin 5 × Fin 5
  | 0 => (1, 0)
  | t + 1 => ((rhoWalk t).2, 2 * (rhoWalk t).1 + 3 * (rhoWalk t).2)

/-- θ's C[x][z] in bit form (R101). -/
def thetaParity (a : Cube) (x : Fin 5) (z : Fin 64) : Bool :=
  Cube.bit a x 0 z ^^ Cube.bit a x 1 z ^^ Cube.bit a x 2 z ^^ Cube.bit a x 3 z ^^ Cube.bit a x 4 z

end Sys2Proof.Machine
end

