-- ==== Sys2Proof/Certificates/Slice0/Obligations.lean ====
section
/-! DEFINITION. The statements for the provers, file by file of the spec. What a command leaves alone is said by
`KeepsHostSide` and `KeepsObuf` (Safety.lean); the working registers are not defined between commands (R41, U7), and what an
OBUF bit at RESULT or above reads as after an output is not defined either (R58, U6), so no statement speaks of them. -/

open Sys2Proof Sys2Proof.Machine

/-! ### 10_state.md, 20_memory.md: state, reset, host accesses -/

/-- R42, R221, as far as they give values: A, STATUS, the operand registers and RESULT zero, PHASE IDLE. -/
def Obligations.ResetValues : Prop :=
  (∀ x y z, Cube.bit State.reset.a x y z = false) ∧ State.reset.status = 0x00000000#32 ∧ State.reset.arg0 = 0 ∧
    State.reset.arg1 = 0 ∧ State.reset.len = 0 ∧ State.reset.result = 0 ∧ State.reset.phase = .idle

/-- R220, R221: the reset event replaces the state of the instance; the buffers hold no value. That MAXBITS and the host's
own accesses survive it is the model's choice (log entry 22). -/
def Obligations.ResetEventReplacesState : Prop :=
  ∀ (s : State) (rest : List Access), s.phase = .idle → s.cmd = none → s.host = .reset :: rest →
    ∃ t, step s = .next t ∧ (∀ x y z, Cube.bit t.a x y z = false) ∧ t.status = 0x00000000#32 ∧ t.arg0 = 0 ∧
      t.arg1 = 0 ∧ t.len = 0 ∧ t.result = 0 ∧ t.phase = .idle ∧ t.cmd = none ∧ t.ibuf = [] ∧ t.obuf = [] ∧
      t.maxBits = s.maxBits ∧ t.host = rest

/-- R33: in every state between two steps STATUS reads BUSY 0, bit 3 and bits 31:8 read 0, ERRCODE is a code the core
produces, ERRCODE is 0 exactly when ERR is 0, and an error is reported only with DONE. -/
def Obligations.StatusReadsAsSpecified : Prop :=
  ∀ s : State, Invariant s →
    s.busy = false ∧ s.status.getLsbD 3 = false ∧ s.status.extractLsb' 8 24 = 0 ∧ s.errcode.toNat ≤ 4 ∧
      (s.err = false ↔ s.errcode = 0) ∧ (s.err = true → s.done = true)

/-- R31: the register numbers. A number names a write only for CMD, ARG0, ARG1 and LEN, and a read only for STATUS, ARG0,
ARG1, LEN and RESULT. That CMD takes the low 32 bits of a value wider than 32 bits is the model's choice (log entry 25). -/
def Obligations.RegisterNumbers : Prop :=
  (∀ v : Word, regWrite 0 v = some (.writeCmd (v.setWidth 32)) ∧ regWrite 1 v = none ∧
      regWrite 2 v = some (.writeArg0 v) ∧ regWrite 3 v = some (.writeArg1 v) ∧ regWrite 4 v = some (.writeLen v) ∧
      ∀ n, 5 ≤ n → regWrite n v = none) ∧
    regRead 0 = none ∧ regRead 1 = some .readStatus ∧ regRead 2 = some .readArg0 ∧ regRead 3 = some .readArg1 ∧
    regRead 4 = some .readLen ∧ regRead 5 = some .readResult ∧ ∀ n, 6 ≤ n → regRead n = none

/-- R34, R35, R36: a host write of an operand register stores the whole value and changes nothing else of the core. -/
def Obligations.OperandRegisterWrites : Prop :=
  ∀ (s : State) (v : Word) (rest : List Access), s.phase = .idle → s.cmd = none →
    (s.host = .writeArg0 v :: rest → step s = .next { s with host := rest, arg0 := v }) ∧
    (s.host = .writeArg1 v :: rest → step s = .next { s with host := rest, arg1 := v }) ∧
    (s.host = .writeLen v :: rest → step s = .next { s with host := rest, len := v })

/-- R59: a host read of a register returns its value and has no side effect. -/
def Obligations.RegisterReadsHaveNoSideEffect : Prop :=
  ∀ (s : State) (rest : List Access), s.phase = .idle → s.cmd = none →
    (s.host = .readStatus :: rest → step s = .next { s with host := rest, answer := some (.status s.status) }) ∧
    (s.host = .readArg0 :: rest → step s = .next { s with host := rest, answer := some (.word s.arg0) }) ∧
    (s.host = .readArg1 :: rest → step s = .next { s with host := rest, answer := some (.word s.arg1) }) ∧
    (s.host = .readLen :: rest → step s = .next { s with host := rest, answer := some (.word s.len) }) ∧
    (s.host = .readResult :: rest → step s = .next { s with host := rest, answer := some (.word s.result) })

/-- R51, R59: a host read of a buffer returns its bits in index order and has no side effect. -/
def Obligations.BufferReadsReturnBits : Prop :=
  ∀ (s : State) (i n : Nat) (rest : List Access), s.phase = .idle → s.cmd = none → s.exceeds (i + n) = false →
    (Buffer.wf s.ibuf → s.host = .readIbuf i n :: rest →
      step s = .next { s with
        host := rest, answer := some (.bits ((List.range n).map fun j => s.ibufBit (i + j))) }) ∧
    (Buffer.wf s.obuf → s.host = .readObuf i n :: rest →
      step s = .next { s with
        host := rest, answer := some (.bits ((List.range n).map fun j => s.obufBit (i + j))) })

/-- R51, R61: after a host write of IBUF a written bit reads as written and every other bit reads as before; nothing else of
the core changes. -/
def Obligations.IbufWriteThenRead : Prop :=
  ∀ (s : State) (i : Nat) (bits : Bits) (rest : List Access), s.phase = .idle → s.cmd = none →
    s.exceeds (i + bits.length) = false → s.host = .writeIbuf i bits :: rest →
    ∃ t, step s = .next t ∧ t = { s with host := rest, ibuf := t.ibuf } ∧
      (∀ j (h : j < bits.length), t.ibufBit (i + j) = bits[j]) ∧
      (∀ j, j < i ∨ i + bits.length ≤ j → t.ibufBit j = s.ibufBit j)

/-- R52: byte k holds bits 8k to 8k + 7, the bit with the lower index the less significant, for writes and for reads. -/
def Obligations.ByteViewOfBuffers : Prop :=
  ∀ (s : State) (k : Nat) (v : BitVec 8) (rest : List Access), s.phase = .idle → s.cmd = none →
    s.exceeds (8 * k + 8) = false →
    (s.host = .writeIbufByte k v :: rest →
      ∃ t, step s = .next t ∧ t = { s with host := rest, ibuf := t.ibuf } ∧
        (∀ i < 8, t.ibufBit (8 * k + i) = v.getLsbD i) ∧
        (∀ j, j < 8 * k ∨ 8 * k + 8 ≤ j → t.ibufBit j = s.ibufBit j)) ∧
    (Buffer.wf s.ibuf → s.host = .readIbufByte k :: rest →
      ∃ b, step s = .next { s with host := rest, answer := some (.byte b) } ∧
        ∀ i < 8, b.getLsbD i = s.ibufBit (8 * k + i)) ∧
    (Buffer.wf s.obuf → s.host = .readObufByte k :: rest →
      ∃ b, step s = .next { s with host := rest, answer := some (.byte b) } ∧
        ∀ i < 8, b.getLsbD i = s.obufBit (8 * k + i))

/-- The model's choice (log entry 20): a host access to a buffer bit at or above a finite MAXBITS is a fault, and so is one
of no bits that starts above it. -/
def Obligations.AccessBeyondMaxBitsFaults : Prop :=
  ∀ (s : State) (x : Access) (n : Nat) (rest : List Access), s.phase = .idle → s.cmd = none → s.host = x :: rest →
    ((∃ i bits, x = .writeIbuf i bits ∧ n = i + bits.length) ∨ (∃ k v, x = .writeIbufByte k v ∧ n = 8 * k + 8) ∨
      (∃ i m, x = .readIbuf i m ∧ n = i + m) ∨ (∃ i m, x = .readObuf i m ∧ n = i + m) ∨
      (∃ k, x = .readIbufByte k ∧ n = 8 * k + 8) ∨ (∃ k, x = .readObufByte k ∧ n = 8 * k + 8)) →
    s.exceeds n = true → step s = .fault .noSuchBufferBit

/-- R209: in IDLE, with no word written to CMD and no access of the host, everything is held unchanged. -/
def Obligations.IdleHoldsEverything : Prop :=
  ∀ s : State, s.phase = .idle → s.cmd = none → s.host = [] → step s = .next s

/-! ### 30_encoding.md: the command word and the step -/

/-- Decoding the word of a command with legal fields gives the command back, IDX included. -/
def Obligations.DecodeOfEncodeIsCommand : Prop :=
  ∀ i : Instr, i.wellFormed = true → decodeWord (encodeWord i) = .command i

/-- R74's match and mask: a command with legal fields is what a word decodes to exactly when the word, masked, equals the
row's match value and, for format CI, (word >> 8) AND 0x1F is its IDX. -/
def Obligations.MatchAndMaskSelectCommand : Prop :=
  ∀ (w : CmdWord) (i : Instr), i.wellFormed = true →
    (decodeWord w = .command i ↔
      w &&& opcodeMask i = opcodeMatch i ∧ ∀ idx, i.index = some idx → (w >>> 8) &&& 0x1F#32 = idx.setWidth 32)

/-- R82's examples, with further words of V1 and V2. -/
def Obligations.EncodingExamples : Prop :=
  decodeWord 0x00000001 = .command .encode ∧ decodeWord 0x00000002 = .command .decode ∧
    decodeWord 0x00000010 = .command .theta ∧ decodeWord 0x00000014 = .command (.iota 0) ∧
    decodeWord 0x00001714 = .command (.iota 23) ∧
    decodeWord 0x00000515 = .command (.rnd 5) ∧ decodeWord 0x00000216 = .command (.keccakp 2) ∧
    decodeWord 0x00000017 = .command .keccakf ∧ decodeWord 0x00000020 = .command .rcbit ∧
    decodeWord 0x00000121 = .command (.rcword 1) ∧ decodeWord 0x00000030 = .command .pad ∧
    decodeWord 0x00000042 = .command .digest ∧ decodeWord 0x00001814 = .reject .indexRange ∧
    decodeWord 0x00000110 = .reject .reservedIndex ∧ decodeWord 0x00000000 = .reject .reservedOpcode ∧
    decodeWord 0x00002010 = .reject .reservedBits

/-- A word written to CMD that decodes to a command is consumed and the command is executed: the step is exec at the state
with CMD consumed (R32, R63). -/
def Obligations.StepRunsDecodedCommand : Prop :=
  ∀ (s : State) (w : CmdWord) (i : Instr), s.phase = .idle → s.cmd = some w → decodeWord w = .command i →
    step s = exec i { s with cmd := none }

/-- R32, R61: the host's write of any word to CMD leaves the word for the core, and the next step, before the host's next
access, is the whole of the command or, for a word that decodes to no command (R75 to R77), UnsupportedVariant with nothing
but STATUS changed. -/
def Obligations.CmdWriteThenCommand : Prop :=
  ∀ (s : State) (w : CmdWord) (rest : List Access), s.phase = .idle → s.cmd = none →
    s.host = .writeCmd w :: rest →
    ∃ t, step s = .next t ∧ t = { s with host := rest, cmd := some w } ∧
      (∀ i, decodeWord w = .command i → step t = exec i { s with host := rest }) ∧
      ((∀ i, decodeWord w ≠ .command i) → step t = .next { s with host := rest, status := 0x00000046#32 })

/-- R75: a word with a reserved OP raises UnsupportedVariant and changes nothing else. -/
def Obligations.ReservedOpcodeRaises : Prop :=
  ∀ (s : State) (w : CmdWord), s.phase = .idle → s.cmd = some w →
    (w.extractLsb' 0 8).toNat ∉ [0x01, 0x02, 0x10, 0x11, 0x12, 0x13, 0x14, 0x15, 0x16, 0x17, 0x20, 0x21, 0x30, 0x40,
      0x41, 0x42] →
    step s = .next { s with cmd := none, status := 0x00000046#32 }

/-- R76: a word with a bit of CMD[31:13] set, or a C0 command with a bit of CMD[12:8] set, raises UnsupportedVariant and
changes nothing else. -/
def Obligations.ReservedBitsRaise : Prop :=
  ∀ (s : State) (w : CmdWord), s.phase = .idle → s.cmd = some w →
    (w.extractLsb' 13 19 ≠ 0 ∨
      ((w.extractLsb' 0 8).toNat ∈ [0x01, 0x02, 0x10, 0x11, 0x12, 0x13, 0x17, 0x20, 0x30, 0x40, 0x41, 0x42] ∧
        w.extractLsb' 8 5 ≠ 0)) →
    step s = .next { s with cmd := none, status := 0x00000046#32 }

/-- R77: IDX above 23 of IOTA, RND or RCWORD, or above 24 of KECCAKP, raises UnsupportedVariant and changes nothing
else. -/
def Obligations.IndexOutOfRangeRaises : Prop :=
  ∀ (s : State) (w : CmdWord), s.phase = .idle → s.cmd = some w →
    (((w.extractLsb' 0 8).toNat ∈ [0x14, 0x15, 0x21] ∧ 23 < (w.extractLsb' 8 5).toNat) ∨
      ((w.extractLsb' 0 8).toNat = 0x16 ∧ 24 < (w.extractLsb' 8 5).toNat)) →
    step s = .next { s with cmd := none, status := 0x00000046#32 }

/-- The model's choice (log entry 18): a command term with an illegal index, which no word decodes to, raises
UnsupportedVariant as the decode stage does. -/
def Obligations.IllFormedCommandsRaise : Prop :=
  ∀ (s : State) (i : Instr), i.wellFormed = false → exec i s = .next { s with status := 0x00000046#32 }

/-- R78: every 32-bit word is either exactly one of the sixteen commands with legal fields, and runs as it, or raises
UnsupportedVariant. -/
def Obligations.EveryWordIsCommandOrRaises : Prop :=
  ∀ (s : State) (w : CmdWord), s.phase = .idle → s.cmd = some w →
    ((∃ i : Instr, (i.wellFormed = true ∧ encodeWord i = w ∧ step s = exec i { s with cmd := none }) ∧
        ∀ j : Instr, j.wellFormed = true → encodeWord j = w → j = i) ∨
      ((∀ i : Instr, i.wellFormed = true → encodeWord i ≠ w) ∧
        step s = .next { s with cmd := none, status := 0x00000046#32 }))

/-! ### 40_codec.md -/

/-- R93, R90: ENCODE at LEN = 1600 loads A from IBUF. -/
def Obligations.EncodeLoadsState : Prop :=
  ∀ s : State, Buffer.wf s.ibuf → s.len.toNat = 1600 → s.exceeds 1600 = false →
    ∃ t, exec .encode s = .next t ∧
      (∀ x y z, Cube.bit t.a x y z = s.ibufBit (64 * (5 * y.val + x.val) + z.val)) ∧
      EndsOk t 0 ∧ KeepsHostSide s t ∧ KeepsObuf s t ∧ t.phase = s.phase

/-- R191: any other LEN is InvalidLength, and nothing but STATUS changes. -/
def Obligations.EncodeRefusesOtherLengths : Prop :=
  ∀ s : State, s.exceeds s.len.toNat = false → s.len.toNat ≠ 1600 →
    exec .encode s = .next { s with status := 0x00000016#32 }

/-- R94, R91: DECODE writes A's flat view to OBUF[0..1599]. -/
def Obligations.DecodeWritesFlatView : Prop :=
  ∀ s : State, s.maxBitsLegal = true →
    ∃ t, exec .decode s = .next t ∧
      (∀ (x y : Fin 5) (z : Fin 64), t.obufBit (64 * (5 * y.val + x.val) + z.val) = Cube.bit s.a x y z) ∧
      t.a = s.a ∧ EndsOk t 1600 ∧ KeepsHostSide s t ∧ t.phase = s.phase

/-- R91, R92: decode is LANE[0] ++ LANE[1] ++ ... ++ LANE[24], each lane in order of z, and encode and decode are inverse
to each other. -/
def Obligations.CodecLaws : Prop :=
  (∀ a : Cube, Cube.flat a = (a.toList.map fun v => (List.range 64).map v.getLsbD).flatten) ∧
    (∀ b : Bits, b.length = 1600 → Cube.flat (Cube.ofFlat b) = b) ∧ ∀ a : Cube, Cube.ofFlat (Cube.flat a) = a

/-! ### 41_permutation.md -/

/-- R101, R103: THETA in bit form. -/
def Obligations.ThetaBitForm : Prop :=
  ∀ s : State, ∃ t, exec .theta s = .next t ∧
    (∀ x y z, Cube.bit t.a x y z =
      (Cube.bit s.a x y z ^^ (thetaParity s.a (x - 1) z ^^ thetaParity s.a (x + 1) (z - 1)))) ∧
    EndsOk t 0 ∧ KeepsHostSide s t ∧ KeepsObuf s t ∧ t.phase = s.phase

/-- R104, R105: RHO in bit form, along the walk, which visits each of the 24 lanes other than (0, 0) exactly once and
returns to (1, 0). -/
def Obligations.RhoBitForm : Prop :=
  (∀ s : State, ∃ t, exec .rho s = .next t ∧
    (∀ z, Cube.bit t.a 0 0 z = Cube.bit s.a 0 0 z) ∧
    (∀ k < 24, ∀ z : Fin 64, Cube.bit t.a (rhoWalk k).1 (rhoWalk k).2 z =
      Cube.bit s.a (rhoWalk k).1 (rhoWalk k).2 (z - Fin.ofNat 64 ((k + 1) * (k + 2) / 2))) ∧
    EndsOk t 0 ∧ KeepsHostSide s t ∧ KeepsObuf s t ∧ t.phase = s.phase) ∧
  (∀ x y : Fin 5, (x = 0 ∧ y = 0) ∨ ∃ k < 24, rhoWalk k = (x, y)) ∧
  (∀ j < 24, ∀ k < 24, rhoWalk j = rhoWalk k → j = k) ∧ (∀ k < 24, rhoWalk k ≠ (0, 0)) ∧ rhoWalk 24 = (1, 0)

/-- R108, R110: PI in bit form. -/
def Obligations.PiBitForm : Prop :=
  ∀ s : State, ∃ t, exec .pi s = .next t ∧
    (∀ x y z, Cube.bit t.a x y z = Cube.bit s.a (x + 3 * y) x z) ∧
    EndsOk t 0 ∧ KeepsHostSide s t ∧ KeepsObuf s t ∧ t.phase = s.phase

/-- R109, R110: the positional inverse of π recovers the state, and 24 applications of π restore it. -/
def Obligations.PiInverseAndOrder : Prop :=
  (∀ (a : Cube) (x y : Fin 5) (z : Fin 64), Cube.bit a x y z = Cube.bit (pi a) y (2 * x + 3 * y) z) ∧
    ∀ a : Cube, Nat.repeat pi 24 a = a

/-- R111, R112: CHI in bit form. -/
def Obligations.ChiBitForm : Prop :=
  ∀ s : State, ∃ t, exec .chi s = .next t ∧
    (∀ x y z, Cube.bit t.a x y z =
      (Cube.bit s.a x y z ^^ ((!Cube.bit s.a (x + 1) y z) && Cube.bit s.a (x + 2) y z))) ∧
    EndsOk t 0 ∧ KeepsHostSide s t ∧ KeepsObuf s t ∧ t.phase = s.phase

/-- R113, R114: IOTA in bit form, with rc as R130's procedure gives it. -/
def Obligations.IotaBitForm : Prop :=
  ∀ (s : State) (ir : BitVec 5), ir.toNat ≤ 23 → ∃ t, exec (.iota ir) s = .next t ∧
    (∀ x y z, ¬ (x = 0 ∧ y = 0) → Cube.bit t.a x y z = Cube.bit s.a x y z) ∧
    (∀ j < 7, ∀ z : Fin 64, z.val = 2 ^ j - 1 →
      Cube.bit t.a 0 0 z = (Cube.bit s.a 0 0 z ^^ rcBits (j + 7 * ir.toNat))) ∧
    (∀ z : Fin 64, (∀ j < 7, z.val ≠ 2 ^ j - 1) → Cube.bit t.a 0 0 z = Cube.bit s.a 0 0 z) ∧
    EndsOk t 0 ∧ KeepsHostSide s t ∧ KeepsObuf s t ∧ t.phase = s.phase

/-- R115, R116: RND with index k is THETA, RHO, PI, CHI, IOTA with index k, in that order. -/
def Obligations.RndIsFiveSteps : Prop :=
  ∀ (s : State) (ir : BitVec 5), ir.toNat ≤ 23 →
    ∃ t s1 s2 s3 s4 s5, exec (.rnd ir) s = .next t ∧ exec .theta s = .next s1 ∧ exec .rho s1 = .next s2 ∧
      exec .pi s2 = .next s3 ∧ exec .chi s3 = .next s4 ∧ exec (.iota ir) s4 = .next s5 ∧ t.a = s5.a ∧
      EndsOk t 0 ∧ KeepsHostSide s t ∧ KeepsObuf s t ∧ t.phase = s.phase

/-- R117, R118, R123: KECCAKP performs the rounds 24 - nr to 23 in increasing order; none for nr = 0. -/
def Obligations.KeccakpRunsLastRounds : Prop :=
  ∀ (s : State) (nr : BitVec 5), nr.toNat ≤ 24 →
    ∃ t, exec (.keccakp nr) s = .next t ∧
      t.a = (List.range nr.toNat).foldl (fun a k => rnd a (24 - nr.toNat + k)) s.a ∧
      EndsOk t 0 ∧ KeepsHostSide s t ∧ KeepsObuf s t ∧ t.phase = s.phase

/-- R119, R120: KECCAKF performs the rounds 0 to 23 in increasing order, and KECCAKP with nr = 24 leaves the same A, STATUS,
RESULT, OBUF bits, PHASE and host's side. The working registers, free values after either (U7), are not compared. -/
def Obligations.KeccakfRunsAllRounds : Prop :=
  ∀ s : State, ∃ t u, exec .keccakf s = .next t ∧ exec (.keccakp 24) s = .next u ∧
    t.a = (List.range 24).foldl rnd s.a ∧ EndsOk t 0 ∧ KeepsHostSide s t ∧ KeepsObuf s t ∧ t.phase = s.phase ∧
    u.a = t.a ∧ EndsOk u 0 ∧ KeepsHostSide t u ∧ KeepsObuf t u ∧ u.phase = t.phase

/-! ### 42_round_constant.md -/

/-- R130, R135: RCBIT's RESULT is rc(ARG0), zero-extended. -/
def Obligations.RcbitReturnsProcedureBit : Prop :=
  ∀ s : State, ∃ t, exec .rcbit s = .next t ∧ EndsOk t (if rcBits s.arg0.toNat then 1 else 0) ∧
    t.a = s.a ∧ KeepsHostSide s t ∧ KeepsObuf s t ∧ t.phase = s.phase

/-- R132: the register returns to 0x01 after exactly 255 iterations and not before, rc has period 255, rc(255) = rc(0) = 1,
and the special case agrees with running no iteration. -/
def Obligations.LfsrPeriod : Prop :=
  lfsr 255 = 0x01 ∧ (∀ n < 255, 0 < n → lfsr n ≠ 0x01) ∧ (∀ t, rc (t + 255) = rc t) ∧ rc 255 = true ∧ rc 0 = true ∧
    (lfsr 0).getLsbD 0 = true

/-- R134, R136: RCWORD's RESULT has rc(j + 7·ir) at bit 2^j - 1 for j in 0..6 and 0 elsewhere. -/
def Obligations.RcwordReturnsConstant : Prop :=
  ∀ (s : State) (ir : BitVec 5), ir.toNat ≤ 23 →
    ∃ t, exec (.rcword ir) s = .next t ∧ EndsOk t t.result ∧
      (∀ j < 7, t.result.getLsbD (2 ^ j - 1) = rcBits (j + 7 * ir.toNat)) ∧
      (∀ z < 64, (∀ j < 7, z ≠ 2 ^ j - 1) → t.result.getLsbD z = false) ∧
      t.a = s.a ∧ KeepsHostSide s t ∧ KeepsObuf s t ∧ t.phase = s.phase

/-! ### 44_padding.md -/

/-- R160, R162: PAD writes 1, j zeros, 1 with j = (-m - 2) mod x. Where j + 2 does not fit RESULT (j + 2 = 2^64) the spec
states no RESULT and the statement says none (log entry 11). LEN is not bounded: that PAD ends without error at a LEN above a
finite MAXBITS is the model's reading (log entry 21). -/
def Obligations.PadWritesString : Prop :=
  ∀ (s : State) (j : Nat), s.arg0 ≠ 0 → (j : Int) = (-(s.len.toNat : Int) - 2) % (s.arg0.toNat : Int) →
    s.exceeds (j + 2) = false →
    ∃ t, exec .pad s = .next t ∧ t.status = 0x00000002#32 ∧ (j + 2 < 2 ^ 64 → t.result.toNat = j + 2) ∧
      (∀ i < j + 2, t.obufBit i = decide (i = 0 ∨ i = j + 1)) ∧
      t.a = s.a ∧ KeepsHostSide s t ∧ t.phase = s.phase

/-- R161 (a) to (f). -/
def Obligations.PadProperties : Prop :=
  ∀ x m : Nat, 0 < x →
    (m + (pad x m).length) % x = 0 ∧ 2 ≤ (pad x m).length ∧ (pad x m).length ≤ x + 1 ∧
    (m % x = x - 1 → pad x m = true :: (List.replicate (x - 1) false ++ [true])) ∧
    (2 ≤ x → m % x = x - 2 → pad x m = [true, true]) ∧
    (2 ≤ x → m % x = 0 → pad x m = true :: (List.replicate (x - 2) false ++ [true])) ∧
    (x = 1 → pad x m = [true, true]) ∧
    (x = 2 → pad x m = if m % 2 = 0 then [true, true] else [true, false, true])

/-! ### 43_sponge.md -/

/-- R149, R150: SPONGE, performed by the controller, leaves in OBUF the sponge function (R140 to R147, with f and pad of
R151) of the input string, RESULT d, and A zero (R152). At rate 1 with LEN near 2^64 the counts exceed the 64 bits of R29, and the
statement rests on the model's reading that they do not wrap (log entry 12). -/
def Obligations.SpongeComputesFunction : Prop :=
  ∀ (s : State) (n : Bits), n.length = s.len.toNat → (∀ j (h : j < n.length), n[j] = s.ibufBit j) →
    Buffer.wf s.ibuf → s.exceeds s.len.toNat = false → s.exceeds s.arg1.toNat = false →
    0 < s.arg0.toNat → s.arg0.toNat < 1600 →
    ∃ t, exec .sponge s = .next t ∧
      (sponge keccakFBits pad s.arg0.toNat n s.arg1.toNat).length = s.arg1.toNat ∧
      ObufHolds t (sponge keccakFBits pad s.arg0.toNat n s.arg1.toNat) ∧
      (∀ x y z, Cube.bit t.a x y z = false) ∧ EndsOk t s.arg1 ∧ KeepsHostSide s t ∧ t.phase = .idle

/-- R149, R154: the controller reaches IDLE after exactly 26·(NBLK + k - 1) + 3 transitions. For counts beyond 64 bits it
rests on the model's reading that they do not wrap (log entry 12). -/
def Obligations.ControllerRunLength : Prop :=
  ∀ (s : State) (r d : Nat) (n : Bits) (m : Nat), 0 < r →
    ((State.coreRun m (s.startSponge r d n)).phase = .idle ↔
      26 * ((n ++ pad r n.length).length / r + max 1 ((d + r - 1) / r) - 1) + 3 ≤ m)

/-- R148: the number of blocks absorbed is floor((m + 1) / r) + 1. -/
def Obligations.BlocksAbsorbed : Prop :=
  ∀ (r m : Nat), 0 < r → (m + (pad r m).length) / r = (m + 1) / r + 1

/-- R153: the output for d is a prefix of the output for any d' ≥ d. -/
def Obligations.OutputIsPrefix : Prop :=
  ∀ (r : Nat) (n : Bits) (d d' : Nat), 0 < r → r < 1600 → d ≤ d' →
    sponge keccakFBits pad r n d = (sponge keccakFBits pad r n d').take d

/-- R155: absorbing a block leaves the capacity part S[r..1599] as it is. -/
def Obligations.AbsorbKeepsCapacityPart : Prop :=
  ∀ (s : State) (x y : Fin 5) (z : Fin 64), s.work.rate ≤ 64 * (5 * y.val + x.val) + z.val →
    Cube.bit s.absorbBlock.a x y z = Cube.bit s.a x y z

/-! ### 45_entry_points.md -/

/-- R170, R172: KECCAK computes the sponge at rate 1600 - c of the message with the suffix 0, 1 appended, c/2 bits. -/
def Obligations.KeccakComputesFunction : Prop :=
  ∀ (s : State) (n : Bits), n.length = s.len.toNat → (∀ j (h : j < n.length), n[j] = s.ibufBit j) →
    Buffer.wf s.ibuf → s.exceeds (s.len.toNat + 2) = false → s.maxBitsLegal = true →
    s.arg0.toNat % 2 = 0 → 0 < s.arg0.toNat → s.arg0.toNat < 1600 →
    ∃ t, exec .keccak s = .next t ∧
      (sponge keccakFBits pad (1600 - s.arg0.toNat) (n ++ [false, true]) (s.arg0.toNat / 2)).length = s.arg0.toNat / 2 ∧
      ObufHolds t (sponge keccakFBits pad (1600 - s.arg0.toNat) (n ++ [false, true]) (s.arg0.toNat / 2)) ∧
      (∀ x y z, Cube.bit t.a x y z = false) ∧ EndsOk t (BitVec.ofNat 64 (s.arg0.toNat / 2)) ∧ KeepsHostSide s t ∧
      t.phase = .idle

/-- R173, R174, R175: DIGEST of a message of bytes leaves its digest's bytes in OBUF. -/
def Obligations.DigestComputesBytes : Prop :=
  ∀ (s : State) (msg : List (BitVec 8)), msg.length = s.len.toNat →
    (∀ k (h : k < msg.length), ∀ i < 8, msg[k].getLsbD i = s.ibufBit (8 * k + i)) →
    Buffer.wf s.ibuf → s.exceeds (8 * s.len.toNat + 2) = false → s.maxBitsLegal = true →
    s.arg0.toNat % 16 = 0 → 0 < s.arg0.toNat → s.arg0.toNat < 1600 →
    ∃ t, exec .digest s = .next t ∧
      (∀ k < s.arg0.toNat / 16, ∀ i < 8,
        t.obufBit (8 * k + i) = ((sha3LikeDigest msg s.arg0.toNat).getD k 0).getLsbD i) ∧
      (∀ x y z, Cube.bit t.a x y z = false) ∧ EndsOk t (BitVec.ofNat 64 (s.arg0.toNat / 2)) ∧ KeepsHostSide s t ∧
      t.phase = .idle

/-- R57, R144, R177: what SPONGE, KECCAK or DIGEST puts out depends on ARG0, ARG1, LEN, MAXBITS and the input bits alone:
neither A, nor OBUF, RESULT, STATUS, PHASE, nor an IBUF bit beyond the input has an effect. -/
def Obligations.OutputDependsOnOperandsOnly : Prop :=
  ∀ (i : Instr) (s s' : State) (t : State), i ∈ [Instr.sponge, .keccak, .digest] → Buffer.wf s.ibuf →
    Buffer.wf s'.ibuf → s'.arg0 = s.arg0 → s'.arg1 = s.arg1 → s'.len = s.len → s'.maxBits = s.maxBits →
    (∀ j < (if i = .digest then 8 * s.len.toNat else s.len.toNat), s'.ibufBit j = s.ibufBit j) →
    exec i s = .next t →
    ∃ t', exec i s' = .next t' ∧ t'.status = t.status ∧
      (t.err = false → t'.result = t.result ∧ t'.a = t.a ∧ ∀ j < t.result.toNat, t'.obufBit j = t.obufBit j)

/-! ### 60_exceptions.md -/

/-- R190, R195: raising an error sets BUSY 0, DONE 1, ERR 1 and the error's code, 1 to 4, and changes nothing else. -/
def Obligations.RaiseChangesStatusOnly : Prop :=
  (∀ (s : State) (e : ErrorKind),
    (s.raise e).busy = false ∧ (s.raise e).done = true ∧ (s.raise e).err = true ∧ (s.raise e).errcode = e.code ∧
      s.raise e = { s with status := (s.raise e).status }) ∧
    ErrorKind.invalidLength.code = 1 ∧ ErrorKind.invalidRate.code = 2 ∧ ErrorKind.invalidCapacity.code = 3 ∧
    ErrorKind.unsupportedVariant.code = 4

/-- R192, R141, R163: InvalidRate, by SPONGE at ARG0 = 0 or ARG0 ≥ 1600, by KECCAK and DIGEST at ARG0 = 0, by PAD at
ARG0 = 0; nothing but STATUS changes. For SPONGE, KECCAK and DIGEST the lengths are assumed to be within MAXBITS, which is
checked first (R197). The clause of PAD holds whatever LEN and MAXBITS are: the model's reading (log entry 21). -/
def Obligations.InvalidRateRaised : Prop :=
  ∀ s : State,
    (s.exceeds s.len.toNat = false → s.exceeds s.arg1.toNat = false → (s.arg0.toNat = 0 ∨ 1600 ≤ s.arg0.toNat) →
      exec .sponge s = .next { s with status := 0x00000026#32 }) ∧
    (s.exceeds (s.len.toNat + 2) = false → s.arg0.toNat = 0 →
      exec .keccak s = .next { s with status := 0x00000026#32 }) ∧
    (s.exceeds (8 * s.len.toNat + 2) = false → s.arg0.toNat = 0 →
      exec .digest s = .next { s with status := 0x00000026#32 }) ∧
    (s.arg0.toNat = 0 → exec .pad s = .next { s with status := 0x00000026#32 })

/-- R193, R171, R176: InvalidCapacity, by KECCAK at an odd ARG0 or ARG0 ≥ 1600, by DIGEST at an ARG0 that is not a multiple
of 16 or ARG0 ≥ 1600; nothing but STATUS changes. The lengths are assumed to be within MAXBITS (R197), half of an odd ARG0
without rounding (log entry 13). -/
def Obligations.InvalidCapacityRaised : Prop :=
  ∀ s : State, s.halfExceeds s.arg0.toNat = false →
    (s.exceeds (s.len.toNat + 2) = false → (s.arg0.toNat % 2 = 1 ∨ 1600 ≤ s.arg0.toNat) →
      exec .keccak s = .next { s with status := 0x00000036#32 }) ∧
    (s.exceeds (8 * s.len.toNat + 2) = false → (s.arg0.toNat % 16 ≠ 0 ∨ 1600 ≤ s.arg0.toNat) →
      exec .digest s = .next { s with status := 0x00000036#32 })

/-- R66, R197: an input or output length above a finite MAXBITS is UnsupportedVariant before the command's own checks. For
KECCAK and DIGEST the output is half of ARG0 bits (log entries 13 and 14). -/
def Obligations.LengthAboveMaxBitsRaises : Prop :=
  ∀ (s : State) (m : Nat), s.maxBits = some m →
    (m < s.len.toNat → exec .encode s = .next { s with status := 0x00000046#32 }) ∧
    (m < s.len.toNat ∨ m < s.arg1.toNat → exec .sponge s = .next { s with status := 0x00000046#32 }) ∧
    (m < s.len.toNat + 2 ∨ 2 * m < s.arg0.toNat → exec .keccak s = .next { s with status := 0x00000046#32 }) ∧
    (m < 8 * s.len.toNat + 2 ∨ 2 * m < s.arg0.toNat → exec .digest s = .next { s with status := 0x00000046#32 }) ∧
    (s.arg0 ≠ 0 → m < (pad s.arg0.toNat s.len.toNat).length →
      exec .pad s = .next { s with status := 0x00000046#32 })

/-- R196: every command in every state has exactly two outcomes, an error that changes STATUS alone or an end without error
that reports DONE; none stops the machine. -/
def Obligations.CommandsHaveTwoOutcomes : Prop :=
  ∀ (i : Instr) (s : State), ∃ t, exec i s = .next t ∧ ((∃ e, t = s.raise e) ∨ t.status = 0x00000002#32)

/-- R40, R57: no command writes ARG0, ARG1, LEN, a bit of IBUF, MAXBITS or anything of the host's. -/
def Obligations.CommandsKeepHostSide : Prop :=
  ∀ (i : Instr) (s t : State), exec i s = .next t → KeepsHostSide s t

/-- R58, R196: a bit of OBUF reads differently only after DECODE, PAD, SPONGE, KECCAK or DIGEST has ended without error. -/
def Obligations.OnlyOutputsChangeObuf : Prop :=
  ∀ (i : Instr) (s t : State) (j : Nat), exec i s = .next t → t.obufBit j ≠ s.obufBit j →
    i ∈ [Instr.decode, .pad, .sponge, .keccak, .digest] ∧ t.status = 0x00000002#32

/-- R207: a step of one instance changes no other. Where that step is a fault there is no next system at all, the model's
choice (log entry 23). -/
def Obligations.InstancesAreIndependent : Prop :=
  ∀ (sys sys' : System) (k j : Nat), System.stepAt sys k = .next sys' → j ≠ k → sys'[j]? = sys[j]?

/-! ### Whole machine -/

/-- The state after reset meets the invariant. -/
def Obligations.ResetMeetsInvariant : Prop := Invariant State.reset

/-- Every step keeps the invariant. -/
def Obligations.StepKeepsInvariant : Prop := ∀ s t : State, Invariant s → step s = .next t → Invariant t

/-- No step changes MAXBITS (R6). -/
def Obligations.MaxBitsNeverChanges : Prop := ∀ s t : State, step s = .next t → t.maxBits = s.maxBits

/-- With unbounded buffers the machine never stops: no step faults or is refused. -/
def Obligations.NoStopWhenUnbounded : Prop := ∀ s : State, s.maxBits = none → ∃ t, step s = .next t
end

