-- ==== Sys2Proof/Laws/State.lean ====
section
/-! SUPPORT. What each named update of the state does to each field: one lemma a field, true by unfolding, so that no later
proof unfolds an update. -/

namespace Sys2Proof.Machine

@[simp] theorem raise_a (s : State) (e : ErrorKind) : (s.raise e).a = s.a := rfl
@[simp] theorem raise_cmd (s : State) (e : ErrorKind) : (s.raise e).cmd = s.cmd := rfl
@[simp] theorem raise_status (s : State) (e : ErrorKind) : (s.raise e).status = statusError e := rfl
@[simp] theorem raise_arg0 (s : State) (e : ErrorKind) : (s.raise e).arg0 = s.arg0 := rfl
@[simp] theorem raise_arg1 (s : State) (e : ErrorKind) : (s.raise e).arg1 = s.arg1 := rfl
@[simp] theorem raise_len (s : State) (e : ErrorKind) : (s.raise e).len = s.len := rfl
@[simp] theorem raise_result (s : State) (e : ErrorKind) : (s.raise e).result = s.result := rfl
@[simp] theorem raise_ibuf (s : State) (e : ErrorKind) : (s.raise e).ibuf = s.ibuf := rfl
@[simp] theorem raise_obuf (s : State) (e : ErrorKind) : (s.raise e).obuf = s.obuf := rfl
@[simp] theorem raise_phase (s : State) (e : ErrorKind) : (s.raise e).phase = s.phase := rfl
@[simp] theorem raise_work (s : State) (e : ErrorKind) : (s.raise e).work = s.work := rfl
@[simp] theorem raise_maxBits (s : State) (e : ErrorKind) : (s.raise e).maxBits = s.maxBits := rfl
@[simp] theorem raise_host (s : State) (e : ErrorKind) : (s.raise e).host = s.host := rfl
@[simp] theorem raise_answer (s : State) (e : ErrorKind) : (s.raise e).answer = s.answer := rfl
@[simp] theorem raise_fresh (s : State) (e : ErrorKind) : (s.raise e).fresh = s.fresh := rfl
@[simp] theorem raise_ibufEra (s : State) (e : ErrorKind) : (s.raise e).ibufEra = s.ibufEra := rfl
@[simp] theorem raise_obufEra (s : State) (e : ErrorKind) : (s.raise e).obufEra = s.obufEra := rfl

@[simp] theorem retire_a (s : State) (v : Word) : (s.retire v).a = s.a := rfl
@[simp] theorem retire_cmd (s : State) (v : Word) : (s.retire v).cmd = s.cmd := rfl
@[simp] theorem retire_status (s : State) (v : Word) : (s.retire v).status = statusDone := rfl
@[simp] theorem retire_arg0 (s : State) (v : Word) : (s.retire v).arg0 = s.arg0 := rfl
@[simp] theorem retire_arg1 (s : State) (v : Word) : (s.retire v).arg1 = s.arg1 := rfl
@[simp] theorem retire_len (s : State) (v : Word) : (s.retire v).len = s.len := rfl
@[simp] theorem retire_result (s : State) (v : Word) : (s.retire v).result = v := rfl
@[simp] theorem retire_ibuf (s : State) (v : Word) : (s.retire v).ibuf = s.ibuf := rfl
@[simp] theorem retire_obuf (s : State) (v : Word) : (s.retire v).obuf = s.obuf := rfl
@[simp] theorem retire_phase (s : State) (v : Word) : (s.retire v).phase = s.phase := rfl
@[simp] theorem retire_work (s : State) (v : Word) : (s.retire v).work = Config.freeWorking s.fresh := rfl
@[simp] theorem retire_maxBits (s : State) (v : Word) : (s.retire v).maxBits = s.maxBits := rfl
@[simp] theorem retire_host (s : State) (v : Word) : (s.retire v).host = s.host := rfl
@[simp] theorem retire_answer (s : State) (v : Word) : (s.retire v).answer = s.answer := rfl
@[simp] theorem retire_fresh (s : State) (v : Word) : (s.retire v).fresh = s.fresh + 1 := rfl
@[simp] theorem retire_ibufEra (s : State) (v : Word) : (s.retire v).ibufEra = s.ibufEra := rfl
@[simp] theorem retire_obufEra (s : State) (v : Word) : (s.retire v).obufEra = s.obufEra := rfl

@[simp] theorem emit_a (s : State) (out : Bits) : (s.emit out).a = s.a := rfl
@[simp] theorem emit_cmd (s : State) (out : Bits) : (s.emit out).cmd = s.cmd := rfl
@[simp] theorem emit_status (s : State) (out : Bits) : (s.emit out).status = s.status := rfl
@[simp] theorem emit_arg0 (s : State) (out : Bits) : (s.emit out).arg0 = s.arg0 := rfl
@[simp] theorem emit_arg1 (s : State) (out : Bits) : (s.emit out).arg1 = s.arg1 := rfl
@[simp] theorem emit_len (s : State) (out : Bits) : (s.emit out).len = s.len := rfl
@[simp] theorem emit_result (s : State) (out : Bits) : (s.emit out).result = s.result := rfl
@[simp] theorem emit_ibuf (s : State) (out : Bits) : (s.emit out).ibuf = s.ibuf := rfl
@[simp] theorem emit_obuf (s : State) (out : Bits) : (s.emit out).obuf = Buffer.cells 0 out := rfl
@[simp] theorem emit_phase (s : State) (out : Bits) : (s.emit out).phase = s.phase := rfl
@[simp] theorem emit_work (s : State) (out : Bits) : (s.emit out).work = s.work := rfl
@[simp] theorem emit_maxBits (s : State) (out : Bits) : (s.emit out).maxBits = s.maxBits := rfl
@[simp] theorem emit_host (s : State) (out : Bits) : (s.emit out).host = s.host := rfl
@[simp] theorem emit_answer (s : State) (out : Bits) : (s.emit out).answer = s.answer := rfl
@[simp] theorem emit_fresh (s : State) (out : Bits) : (s.emit out).fresh = s.fresh := rfl
@[simp] theorem emit_ibufEra (s : State) (out : Bits) : (s.emit out).ibufEra = s.ibufEra := rfl
@[simp] theorem emit_obufEra (s : State) (out : Bits) : (s.emit out).obufEra = s.fresh := rfl

@[simp] theorem mapA_a (s : State) (f : Cube → Cube) : (s.mapA f).a = f s.a := rfl
@[simp] theorem mapA_cmd (s : State) (f : Cube → Cube) : (s.mapA f).cmd = s.cmd := rfl
@[simp] theorem mapA_status (s : State) (f : Cube → Cube) : (s.mapA f).status = statusDone := rfl
@[simp] theorem mapA_arg0 (s : State) (f : Cube → Cube) : (s.mapA f).arg0 = s.arg0 := rfl
@[simp] theorem mapA_arg1 (s : State) (f : Cube → Cube) : (s.mapA f).arg1 = s.arg1 := rfl
@[simp] theorem mapA_len (s : State) (f : Cube → Cube) : (s.mapA f).len = s.len := rfl
@[simp] theorem mapA_result (s : State) (f : Cube → Cube) : (s.mapA f).result = 0 := rfl
@[simp] theorem mapA_ibuf (s : State) (f : Cube → Cube) : (s.mapA f).ibuf = s.ibuf := rfl
@[simp] theorem mapA_obuf (s : State) (f : Cube → Cube) : (s.mapA f).obuf = s.obuf := rfl
@[simp] theorem mapA_phase (s : State) (f : Cube → Cube) : (s.mapA f).phase = s.phase := rfl
@[simp] theorem mapA_work (s : State) (f : Cube → Cube) : (s.mapA f).work = Config.freeWorking s.fresh := rfl
@[simp] theorem mapA_maxBits (s : State) (f : Cube → Cube) : (s.mapA f).maxBits = s.maxBits := rfl
@[simp] theorem mapA_host (s : State) (f : Cube → Cube) : (s.mapA f).host = s.host := rfl
@[simp] theorem mapA_answer (s : State) (f : Cube → Cube) : (s.mapA f).answer = s.answer := rfl
@[simp] theorem mapA_fresh (s : State) (f : Cube → Cube) : (s.mapA f).fresh = s.fresh + 1 := rfl
@[simp] theorem mapA_ibufEra (s : State) (f : Cube → Cube) : (s.mapA f).ibufEra = s.ibufEra := rfl
@[simp] theorem mapA_obufEra (s : State) (f : Cube → Cube) : (s.mapA f).obufEra = s.obufEra := rfl

@[simp] theorem roundStep_a (s : State) : (s.roundStep).a = rnd s.a s.work.ir.toNat := rfl
@[simp] theorem roundStep_cmd (s : State) : (s.roundStep).cmd = s.cmd := rfl
@[simp] theorem roundStep_status (s : State) : (s.roundStep).status = s.status := rfl
@[simp] theorem roundStep_arg0 (s : State) : (s.roundStep).arg0 = s.arg0 := rfl
@[simp] theorem roundStep_arg1 (s : State) : (s.roundStep).arg1 = s.arg1 := rfl
@[simp] theorem roundStep_len (s : State) : (s.roundStep).len = s.len := rfl
@[simp] theorem roundStep_result (s : State) : (s.roundStep).result = s.result := rfl
@[simp] theorem roundStep_ibuf (s : State) : (s.roundStep).ibuf = s.ibuf := rfl
@[simp] theorem roundStep_obuf (s : State) : (s.roundStep).obuf = s.obuf := rfl
@[simp] theorem roundStep_phase (s : State) : (s.roundStep).phase = s.phase := rfl
@[simp] theorem roundStep_work (s : State) : (s.roundStep).work = { s.work with ir := s.work.ir + 1 } := rfl
@[simp] theorem roundStep_maxBits (s : State) : (s.roundStep).maxBits = s.maxBits := rfl
@[simp] theorem roundStep_host (s : State) : (s.roundStep).host = s.host := rfl
@[simp] theorem roundStep_answer (s : State) : (s.roundStep).answer = s.answer := rfl
@[simp] theorem roundStep_fresh (s : State) : (s.roundStep).fresh = s.fresh := rfl
@[simp] theorem roundStep_ibufEra (s : State) : (s.roundStep).ibufEra = s.ibufEra := rfl
@[simp] theorem roundStep_obufEra (s : State) : (s.roundStep).obufEra = s.obufEra := rfl

@[simp] theorem startSponge_a (s : State) (r d : Nat) (n : Bits) : (s.startSponge r d n).a = Cube.zero := rfl
@[simp] theorem startSponge_cmd (s : State) (r d : Nat) (n : Bits) : (s.startSponge r d n).cmd = s.cmd := rfl
@[simp] theorem startSponge_status (s : State) (r d : Nat) (n : Bits) : (s.startSponge r d n).status = statusBusy := rfl
@[simp] theorem startSponge_arg0 (s : State) (r d : Nat) (n : Bits) : (s.startSponge r d n).arg0 = s.arg0 := rfl
@[simp] theorem startSponge_arg1 (s : State) (r d : Nat) (n : Bits) : (s.startSponge r d n).arg1 = s.arg1 := rfl
@[simp] theorem startSponge_len (s : State) (r d : Nat) (n : Bits) : (s.startSponge r d n).len = s.len := rfl
@[simp] theorem startSponge_result (s : State) (r d : Nat) (n : Bits) : (s.startSponge r d n).result = s.result := rfl
@[simp] theorem startSponge_ibuf (s : State) (r d : Nat) (n : Bits) : (s.startSponge r d n).ibuf = s.ibuf := rfl
@[simp] theorem startSponge_obuf (s : State) (r d : Nat) (n : Bits) : (s.startSponge r d n).obuf = s.obuf := rfl
@[simp] theorem startSponge_phase (s : State) (r d : Nat) (n : Bits) : (s.startSponge r d n).phase = .absorb := rfl
@[simp] theorem startSponge_work (s : State) (r d : Nat) (n : Bits) : (s.startSponge r d n).work = { s.work with p := n ++ pad r n.length, nblk := (n ++ pad r n.length).length / r, blk := 0, zlen := 0, rate := r, outLen := d } := rfl
@[simp] theorem startSponge_maxBits (s : State) (r d : Nat) (n : Bits) : (s.startSponge r d n).maxBits = s.maxBits := rfl
@[simp] theorem startSponge_host (s : State) (r d : Nat) (n : Bits) : (s.startSponge r d n).host = s.host := rfl
@[simp] theorem startSponge_answer (s : State) (r d : Nat) (n : Bits) : (s.startSponge r d n).answer = s.answer := rfl
@[simp] theorem startSponge_fresh (s : State) (r d : Nat) (n : Bits) : (s.startSponge r d n).fresh = s.fresh := rfl
@[simp] theorem startSponge_ibufEra (s : State) (r d : Nat) (n : Bits) : (s.startSponge r d n).ibufEra = s.ibufEra := rfl
@[simp] theorem startSponge_obufEra (s : State) (r d : Nat) (n : Bits) : (s.startSponge r d n).obufEra = s.obufEra := rfl

@[simp] theorem absorbBlock_a (s : State) : (s.absorbBlock).a = Cube.xor s.a (Cube.ofFlat s.currentBlock) := rfl
@[simp] theorem absorbBlock_cmd (s : State) : (s.absorbBlock).cmd = s.cmd := rfl
@[simp] theorem absorbBlock_status (s : State) : (s.absorbBlock).status = s.status := rfl
@[simp] theorem absorbBlock_arg0 (s : State) : (s.absorbBlock).arg0 = s.arg0 := rfl
@[simp] theorem absorbBlock_arg1 (s : State) : (s.absorbBlock).arg1 = s.arg1 := rfl
@[simp] theorem absorbBlock_len (s : State) : (s.absorbBlock).len = s.len := rfl
@[simp] theorem absorbBlock_result (s : State) : (s.absorbBlock).result = s.result := rfl
@[simp] theorem absorbBlock_ibuf (s : State) : (s.absorbBlock).ibuf = s.ibuf := rfl
@[simp] theorem absorbBlock_obuf (s : State) : (s.absorbBlock).obuf = s.obuf := rfl
@[simp] theorem absorbBlock_phase (s : State) : (s.absorbBlock).phase = .round := rfl
@[simp] theorem absorbBlock_work (s : State) : (s.absorbBlock).work = { s.work with blk := s.work.blk + 1, ir := 0, ret := .absorb } := rfl
@[simp] theorem absorbBlock_maxBits (s : State) : (s.absorbBlock).maxBits = s.maxBits := rfl
@[simp] theorem absorbBlock_host (s : State) : (s.absorbBlock).host = s.host := rfl
@[simp] theorem absorbBlock_answer (s : State) : (s.absorbBlock).answer = s.answer := rfl
@[simp] theorem absorbBlock_fresh (s : State) : (s.absorbBlock).fresh = s.fresh := rfl
@[simp] theorem absorbBlock_ibufEra (s : State) : (s.absorbBlock).ibufEra = s.ibufEra := rfl
@[simp] theorem absorbBlock_obufEra (s : State) : (s.absorbBlock).obufEra = s.obufEra := rfl

@[simp] theorem squeezeBlock_a (s : State) : (s.squeezeBlock).a = s.a := rfl
@[simp] theorem squeezeBlock_cmd (s : State) : (s.squeezeBlock).cmd = s.cmd := rfl
@[simp] theorem squeezeBlock_status (s : State) : (s.squeezeBlock).status = s.status := rfl
@[simp] theorem squeezeBlock_arg0 (s : State) : (s.squeezeBlock).arg0 = s.arg0 := rfl
@[simp] theorem squeezeBlock_arg1 (s : State) : (s.squeezeBlock).arg1 = s.arg1 := rfl
@[simp] theorem squeezeBlock_len (s : State) : (s.squeezeBlock).len = s.len := rfl
@[simp] theorem squeezeBlock_result (s : State) : (s.squeezeBlock).result = s.result := rfl
@[simp] theorem squeezeBlock_ibuf (s : State) : (s.squeezeBlock).ibuf = s.ibuf := rfl
@[simp] theorem squeezeBlock_obuf (s : State) : (s.squeezeBlock).obuf = Buffer.write s.obuf s.work.zlen ((Cube.flat s.a).take s.work.rate) := rfl
@[simp] theorem squeezeBlock_phase (s : State) : (s.squeezeBlock).phase = .round := rfl
@[simp] theorem squeezeBlock_work (s : State) : (s.squeezeBlock).work = { s.work with zlen := s.work.zlen + s.work.rate, ir := 0, ret := .squeeze } := rfl
@[simp] theorem squeezeBlock_maxBits (s : State) : (s.squeezeBlock).maxBits = s.maxBits := rfl
@[simp] theorem squeezeBlock_host (s : State) : (s.squeezeBlock).host = s.host := rfl
@[simp] theorem squeezeBlock_answer (s : State) : (s.squeezeBlock).answer = s.answer := rfl
@[simp] theorem squeezeBlock_fresh (s : State) : (s.squeezeBlock).fresh = s.fresh := rfl
@[simp] theorem squeezeBlock_ibufEra (s : State) : (s.squeezeBlock).ibufEra = s.ibufEra := rfl
@[simp] theorem squeezeBlock_obufEra (s : State) : (s.squeezeBlock).obufEra = s.obufEra := rfl

@[simp] theorem squeezeLast_a (s : State) : (s.squeezeLast).a = s.a := rfl
@[simp] theorem squeezeLast_cmd (s : State) : (s.squeezeLast).cmd = s.cmd := rfl
@[simp] theorem squeezeLast_status (s : State) : (s.squeezeLast).status = s.status := rfl
@[simp] theorem squeezeLast_arg0 (s : State) : (s.squeezeLast).arg0 = s.arg0 := rfl
@[simp] theorem squeezeLast_arg1 (s : State) : (s.squeezeLast).arg1 = s.arg1 := rfl
@[simp] theorem squeezeLast_len (s : State) : (s.squeezeLast).len = s.len := rfl
@[simp] theorem squeezeLast_result (s : State) : (s.squeezeLast).result = s.result := rfl
@[simp] theorem squeezeLast_ibuf (s : State) : (s.squeezeLast).ibuf = s.ibuf := rfl
@[simp] theorem squeezeLast_obuf (s : State) : (s.squeezeLast).obuf = Buffer.write s.obuf s.work.zlen ((Cube.flat s.a).take (s.work.outLen - s.work.zlen)) := rfl
@[simp] theorem squeezeLast_phase (s : State) : (s.squeezeLast).phase = .finish := rfl
@[simp] theorem squeezeLast_work (s : State) : (s.squeezeLast).work = { s.work with zlen := s.work.zlen + s.work.rate } := rfl
@[simp] theorem squeezeLast_maxBits (s : State) : (s.squeezeLast).maxBits = s.maxBits := rfl
@[simp] theorem squeezeLast_host (s : State) : (s.squeezeLast).host = s.host := rfl
@[simp] theorem squeezeLast_answer (s : State) : (s.squeezeLast).answer = s.answer := rfl
@[simp] theorem squeezeLast_fresh (s : State) : (s.squeezeLast).fresh = s.fresh := rfl
@[simp] theorem squeezeLast_ibufEra (s : State) : (s.squeezeLast).ibufEra = s.ibufEra := rfl
@[simp] theorem squeezeLast_obufEra (s : State) : (s.squeezeLast).obufEra = s.obufEra := rfl

@[simp] theorem finishSponge_a (s : State) : (s.finishSponge).a = Cube.zero := rfl
@[simp] theorem finishSponge_cmd (s : State) : (s.finishSponge).cmd = s.cmd := rfl
@[simp] theorem finishSponge_status (s : State) : (s.finishSponge).status = statusDone := rfl
@[simp] theorem finishSponge_arg0 (s : State) : (s.finishSponge).arg0 = s.arg0 := rfl
@[simp] theorem finishSponge_arg1 (s : State) : (s.finishSponge).arg1 = s.arg1 := rfl
@[simp] theorem finishSponge_len (s : State) : (s.finishSponge).len = s.len := rfl
@[simp] theorem finishSponge_result (s : State) : (s.finishSponge).result = s.countWord s.work.outLen := rfl
@[simp] theorem finishSponge_ibuf (s : State) : (s.finishSponge).ibuf = s.ibuf := rfl
@[simp] theorem finishSponge_obuf (s : State) : (s.finishSponge).obuf = Buffer.cut s.obuf s.work.outLen := rfl
@[simp] theorem finishSponge_phase (s : State) : (s.finishSponge).phase = .idle := rfl
@[simp] theorem finishSponge_work (s : State) : (s.finishSponge).work = Config.freeWorking s.fresh := rfl
@[simp] theorem finishSponge_maxBits (s : State) : (s.finishSponge).maxBits = s.maxBits := rfl
@[simp] theorem finishSponge_host (s : State) : (s.finishSponge).host = s.host := rfl
@[simp] theorem finishSponge_answer (s : State) : (s.finishSponge).answer = s.answer := rfl
@[simp] theorem finishSponge_fresh (s : State) : (s.finishSponge).fresh = s.fresh + 1 := rfl
@[simp] theorem finishSponge_ibufEra (s : State) : (s.finishSponge).ibufEra = s.ibufEra := rfl
@[simp] theorem finishSponge_obufEra (s : State) : (s.finishSponge).obufEra = s.fresh := rfl

@[simp] theorem reply_a (s : State) (v : Answer) : (s.reply v).a = s.a := rfl
@[simp] theorem reply_cmd (s : State) (v : Answer) : (s.reply v).cmd = s.cmd := rfl
@[simp] theorem reply_status (s : State) (v : Answer) : (s.reply v).status = s.status := rfl
@[simp] theorem reply_arg0 (s : State) (v : Answer) : (s.reply v).arg0 = s.arg0 := rfl
@[simp] theorem reply_arg1 (s : State) (v : Answer) : (s.reply v).arg1 = s.arg1 := rfl
@[simp] theorem reply_len (s : State) (v : Answer) : (s.reply v).len = s.len := rfl
@[simp] theorem reply_result (s : State) (v : Answer) : (s.reply v).result = s.result := rfl
@[simp] theorem reply_ibuf (s : State) (v : Answer) : (s.reply v).ibuf = s.ibuf := rfl
@[simp] theorem reply_obuf (s : State) (v : Answer) : (s.reply v).obuf = s.obuf := rfl
@[simp] theorem reply_phase (s : State) (v : Answer) : (s.reply v).phase = s.phase := rfl
@[simp] theorem reply_work (s : State) (v : Answer) : (s.reply v).work = s.work := rfl
@[simp] theorem reply_maxBits (s : State) (v : Answer) : (s.reply v).maxBits = s.maxBits := rfl
@[simp] theorem reply_host (s : State) (v : Answer) : (s.reply v).host = s.host := rfl
@[simp] theorem reply_answer (s : State) (v : Answer) : (s.reply v).answer = some v := rfl
@[simp] theorem reply_fresh (s : State) (v : Answer) : (s.reply v).fresh = s.fresh := rfl
@[simp] theorem reply_ibufEra (s : State) (v : Answer) : (s.reply v).ibufEra = s.ibufEra := rfl
@[simp] theorem reply_obufEra (s : State) (v : Answer) : (s.reply v).obufEra = s.obufEra := rfl

@[simp] theorem withCmd_a (s : State) (w : CmdWord) : (s.withCmd w).a = s.a := rfl
@[simp] theorem withCmd_cmd (s : State) (w : CmdWord) : (s.withCmd w).cmd = some w := rfl
@[simp] theorem withCmd_status (s : State) (w : CmdWord) : (s.withCmd w).status = s.status := rfl
@[simp] theorem withCmd_arg0 (s : State) (w : CmdWord) : (s.withCmd w).arg0 = s.arg0 := rfl
@[simp] theorem withCmd_arg1 (s : State) (w : CmdWord) : (s.withCmd w).arg1 = s.arg1 := rfl
@[simp] theorem withCmd_len (s : State) (w : CmdWord) : (s.withCmd w).len = s.len := rfl
@[simp] theorem withCmd_result (s : State) (w : CmdWord) : (s.withCmd w).result = s.result := rfl
@[simp] theorem withCmd_ibuf (s : State) (w : CmdWord) : (s.withCmd w).ibuf = s.ibuf := rfl
@[simp] theorem withCmd_obuf (s : State) (w : CmdWord) : (s.withCmd w).obuf = s.obuf := rfl
@[simp] theorem withCmd_phase (s : State) (w : CmdWord) : (s.withCmd w).phase = .idle := rfl
@[simp] theorem withCmd_work (s : State) (w : CmdWord) : (s.withCmd w).work = s.work := rfl
@[simp] theorem withCmd_maxBits (s : State) (w : CmdWord) : (s.withCmd w).maxBits = s.maxBits := rfl
@[simp] theorem withCmd_host (s : State) (w : CmdWord) : (s.withCmd w).host = s.host := rfl
@[simp] theorem withCmd_answer (s : State) (w : CmdWord) : (s.withCmd w).answer = s.answer := rfl
@[simp] theorem withCmd_fresh (s : State) (w : CmdWord) : (s.withCmd w).fresh = s.fresh := rfl
@[simp] theorem withCmd_ibufEra (s : State) (w : CmdWord) : (s.withCmd w).ibufEra = s.ibufEra := rfl
@[simp] theorem withCmd_obufEra (s : State) (w : CmdWord) : (s.withCmd w).obufEra = s.obufEra := rfl

@[simp] theorem resetEvent_a (s : State) : (s.resetEvent).a = Vector.replicate 25 0 := rfl
@[simp] theorem resetEvent_cmd (s : State) : (s.resetEvent).cmd = none := rfl
@[simp] theorem resetEvent_status (s : State) : (s.resetEvent).status = 0 := rfl
@[simp] theorem resetEvent_arg0 (s : State) : (s.resetEvent).arg0 = 0 := rfl
@[simp] theorem resetEvent_arg1 (s : State) : (s.resetEvent).arg1 = 0 := rfl
@[simp] theorem resetEvent_len (s : State) : (s.resetEvent).len = 0 := rfl
@[simp] theorem resetEvent_result (s : State) : (s.resetEvent).result = 0 := rfl
@[simp] theorem resetEvent_ibuf (s : State) : (s.resetEvent).ibuf = [] := rfl
@[simp] theorem resetEvent_obuf (s : State) : (s.resetEvent).obuf = [] := rfl
@[simp] theorem resetEvent_phase (s : State) : (s.resetEvent).phase = .idle := rfl
@[simp] theorem resetEvent_work (s : State) : (s.resetEvent).work = Config.freeWorking s.fresh := rfl
@[simp] theorem resetEvent_maxBits (s : State) : (s.resetEvent).maxBits = s.maxBits := rfl
@[simp] theorem resetEvent_host (s : State) : (s.resetEvent).host = s.host := rfl
@[simp] theorem resetEvent_answer (s : State) : (s.resetEvent).answer = none := rfl
@[simp] theorem resetEvent_fresh (s : State) : (s.resetEvent).fresh = s.fresh + 1 := rfl
@[simp] theorem resetEvent_ibufEra (s : State) : (s.resetEvent).ibufEra = s.fresh := rfl
@[simp] theorem resetEvent_obufEra (s : State) : (s.resetEvent).obufEra = s.fresh := rfl

end Sys2Proof.Machine
end

