-- ==== Sys2Proof/Laws/Buffer.lean ====
section
/-! SUPPORT. The laws of the buffers: what each operation leaves at each index, and that each keeps the canonical form. -/

namespace Sys2Proof.Machine

/-! ### The layout of a string -/

@[simp] theorem cells_nil (i : Nat) : Buffer.cells i [] = [] := rfl

@[simp] theorem cells_cons (i : Nat) (b : Bool) (bs : Bits) :
    Buffer.cells i (b :: bs) = (i, b) :: Buffer.cells (i + 1) bs := rfl

theorem cells_append (i : Nat) (xs ys : Bits) :
    Buffer.cells i (xs ++ ys) = Buffer.cells i xs ++ Buffer.cells (i + xs.length) ys := by
  induction xs generalizing i with
  | nil => simp
  | cons x xs ih => simp [ih, Nat.add_assoc, Nat.add_comm 1]

@[simp] theorem map_snd_cells (i : Nat) (bits : Bits) : (Buffer.cells i bits).map Prod.snd = bits := by
  induction bits generalizing i with
  | nil => rfl
  | cons b bs ih => simp [ih]

theorem mem_cells_bounds {i : Nat} {bits : Bits} {c : Nat × Bool} (h : c ∈ Buffer.cells i bits) :
    i ≤ c.1 ∧ c.1 < i + bits.length := by
  induction bits generalizing i with
  | nil => simp at h
  | cons b bs ih =>
    rcases List.mem_cons.mp h with rfl | h
    · simp
    · have := ih h
      simp only [List.length_cons]
      omega

theorem cells_wf (i : Nat) (bits : Bits) : Buffer.wf (Buffer.cells i bits) := by
  induction bits generalizing i with
  | nil => exact List.Pairwise.nil
  | cons b bs ih =>
    refine List.Pairwise.cons (fun c hc => ?_) (ih (i + 1))
    have := mem_cells_bounds hc
    show i < c.1
    omega

/-! ### What an index holds -/

@[simp] theorem get_nil (i : Nat) : Buffer.get [] i = none := rfl

theorem get_cons (k : Nat) (v : Bool) (b : Buffer) (i : Nat) :
    Buffer.get ((k, v) :: b) i = if i = k then some v else Buffer.get b i := by
  unfold Buffer.get
  rw [List.lookup_cons]
  by_cases h : i = k
  · simp [h]
  · simp [h, beq_eq_false_iff_ne.mpr h]

theorem get_append (b c : Buffer) (i : Nat) :
    Buffer.get (b ++ c) i = (Buffer.get b i).or (Buffer.get c i) := by
  induction b with
  | nil => simp
  | cons p b ih =>
    obtain ⟨k, v⟩ := p
    rw [List.cons_append, get_cons, get_cons, ih]
    by_cases h : i = k <;> simp [h]

theorem get_eq_none_of_forall {b : Buffer} {i : Nat} (h : ∀ c ∈ b, c.1 ≠ i) : Buffer.get b i = none := by
  induction b with
  | nil => rfl
  | cons p b ih =>
    obtain ⟨k, v⟩ := p
    have hk : i ≠ k := fun e => h (k, v) (by simp) e.symm
    rw [get_cons, if_neg hk]
    exact ih fun c hc => h c (List.mem_cons_of_mem _ hc)

/-- Restricting a buffer to the indices that pass a test keeps what they hold. -/
theorem get_filter (q : Nat → Bool) (b : Buffer) (i : Nat) :
    Buffer.get (b.filter fun c => q c.1) i = if q i then Buffer.get b i else none := by
  induction b with
  | nil => simp
  | cons p b ih =>
    obtain ⟨k, v⟩ := p
    rw [List.filter_cons]
    by_cases hk : q k
    · rw [if_pos hk, get_cons, get_cons, ih]
      by_cases h : i = k
      · subst h; simp [hk]
      · simp [h]
    · rw [if_neg hk, ih, get_cons]
      by_cases h : i = k
      · subst h; simp [hk]
      · simp [h]

theorem get_cells (i : Nat) (bits : Bits) (j : Nat) :
    Buffer.get (Buffer.cells i bits) j = if i ≤ j then bits[j - i]? else none := by
  induction bits generalizing i with
  | nil => simp
  | cons b bs ih =>
    rw [cells_cons, get_cons, ih]
    rcases Nat.lt_trichotomy j i with h | h | h
    · rw [if_neg (by omega), if_neg (by omega), if_neg (by omega)]
    · subst h; simp
    · rw [if_neg (by omega), if_pos (by omega), if_pos (by omega)]
      have : j - i = (j - (i + 1)) + 1 := by omega
      rw [this, List.getElem?_cons_succ]

/-- A write gives the written string at its own indices and leaves every other index alone. -/
theorem get_write (b : Buffer) (i : Nat) (bits : Bits) (j : Nat) :
    Buffer.get (Buffer.write b i bits) j =
      if i ≤ j ∧ j < i + bits.length then bits[j - i]? else Buffer.get b j := by
  unfold Buffer.write
  rw [get_append, get_append, get_filter (fun k => decide (k < i)),
    get_filter (fun k => decide (i + bits.length ≤ k)), get_cells]
  rcases Nat.lt_or_ge j i with h | h
  · have h1 : ¬ i ≤ j := by omega
    have h2 : ¬ i + bits.length ≤ j := by omega
    simp [h, h1, h2]
  · rcases Nat.lt_or_ge j (i + bits.length) with h' | h'
    · have h1 : ¬ j < i := by omega
      have h2 : ¬ i + bits.length ≤ j := by omega
      simp [h, h', h1, h2]
    · have h1 : ¬ j < i := by omega
      have h2 : ¬ j < i + bits.length := by omega
      have h3 : bits[j - i]? = none := List.getElem?_eq_none (by omega)
      simp [h, h', h1, h2, h3]

/-- Cutting keeps what lies below and takes away the rest. -/
theorem get_cut (b : Buffer) (n j : Nat) :
    Buffer.get (Buffer.cut b n) j = if j < n then Buffer.get b j else none := by
  unfold Buffer.cut
  rw [get_filter (fun k => decide (k < n))]
  simp

/-! ### The canonical form -/

theorem write_wf {b : Buffer} (h : Buffer.wf b) (i : Nat) (bits : Bits) : Buffer.wf (Buffer.write b i bits) := by
  unfold Buffer.write
  refine List.pairwise_append.mpr ⟨List.pairwise_append.mpr ⟨h.filter _, cells_wf i bits, ?_⟩, h.filter _, ?_⟩
  · intro c hc e he
    have := mem_cells_bounds he
    have := (List.mem_filter.mp hc).2
    simp at this
    omega
  · intro c hc e he
    have h2 := (List.mem_filter.mp he).2
    simp at h2
    rcases List.mem_append.mp hc with hc | hc
    · have := (List.mem_filter.mp hc).2
      simp at this
      omega
    · have := mem_cells_bounds hc
      omega

theorem cut_wf {b : Buffer} (h : Buffer.wf b) (n : Nat) : Buffer.wf (Buffer.cut b n) := h.filter _

theorem segment_wf {b : Buffer} (h : b = Buffer.cells 0 (b.map Prod.snd)) : Buffer.wf b := by
  rw [h]
  exact cells_wf 0 _

theorem mem_write {b : Buffer} {i : Nat} {bits : Bits} {c : Nat × Bool} (h : c ∈ Buffer.write b i bits) :
    c ∈ b ∨ (i ≤ c.1 ∧ c.1 < i + bits.length) := by
  unfold Buffer.write at h
  rcases List.mem_append.mp h with h | h
  · rcases List.mem_append.mp h with h | h
    · exact .inl (List.mem_filter.mp h).1
    · exact .inr (mem_cells_bounds h)
  · exact .inl (List.mem_filter.mp h).1

/-! ### Reading a run -/

@[simp] theorem readRun_zero (free : Nat → Bool) (b : Buffer) (i : Nat) : Buffer.readRun free b i 0 = [] := by
  unfold Buffer.readRun
  rfl

@[simp] theorem length_readRun (free : Nat → Bool) (b : Buffer) (i n : Nat) :
    (Buffer.readRun free b i n).length = n := by
  induction n generalizing b i with
  | zero => simp
  | succ n ih =>
    unfold Buffer.readRun
    split
    · simp [ih]
    · split <;> simp [ih]

/-- On a buffer in canonical form, dropping the indices below `i` keeps what every later index holds. -/
theorem get_dropWhile {b : Buffer} (h : Buffer.wf b) {i j : Nat} (hj : i ≤ j) :
    Buffer.get (b.dropWhile fun c => decide (c.1 < i)) j = Buffer.get b j := by
  induction b with
  | nil => rfl
  | cons p b ih =>
    obtain ⟨k, v⟩ := p
    rw [List.dropWhile_cons]
    by_cases hk : k < i
    · have hne : ¬ j = k := by omega
      simp only [hk, decide_true, if_true]
      rw [ih (List.Pairwise.of_cons h), get_cons, if_neg hne]
    · simp [hk]

/-- On a buffer in canonical form a run is read bit by bit. -/
theorem readRun_eq_map (free : Nat → Bool) {b : Buffer} (h : Buffer.wf b) (i n : Nat) :
    Buffer.readRun free b i n = (List.range n).map fun j => (Buffer.get b (i + j)).getD (free (i + j)) := by
  induction n generalizing b i with
  | zero => simp
  | succ n ih =>
    have hsplit : (List.range (n + 1)).map (fun j => (Buffer.get b (i + j)).getD (free (i + j))) =
        (Buffer.get b i).getD (free i) ::
          (List.range n).map (fun j => (Buffer.get b (i + 1 + j)).getD (free (i + 1 + j))) := by
      rw [List.range_succ_eq_map, List.map_cons, List.map_map]
      refine congrArg₂ List.cons (by simp) (List.map_congr_left fun j _ => ?_)
      simp [Nat.add_assoc, Nat.add_comm 1]
    rw [hsplit]
    have hd : ∀ j, i ≤ j → Buffer.get (b.dropWhile fun c => decide (c.1 < i)) j = Buffer.get b j :=
      fun j hj => get_dropWhile h hj
    have hw : Buffer.wf (b.dropWhile fun c => decide (c.1 < i)) :=
      List.Pairwise.sublist (List.dropWhile_sublist _) h
    unfold Buffer.readRun
    split
    · next heq =>
      rw [heq] at hd
      rw [ih List.Pairwise.nil, ← hd i (Nat.le_refl i)]
      refine congrArg₂ List.cons (by simp) (List.map_congr_left fun j _ => ?_)
      rw [← hd (i + 1 + j) (by omega)]
    · next k v rest heq =>
      rw [heq] at hd hw
      split
      · next hk =>
        subst hk
        rw [ih (List.Pairwise.of_cons hw), ← hd k (Nat.le_refl k), get_cons, if_pos rfl]
        refine congrArg₂ List.cons (by simp) (List.map_congr_left fun j _ => ?_)
        rw [← hd (k + 1 + j) (by omega), get_cons, if_neg (by omega)]
      · next hk =>
        have hki : i < k := by
          have hmem : ∀ x ∈ (b.dropWhile fun c => decide (c.1 < i)).head?, ¬ x.1 < i := by
            intro x hx
            have := List.head?_dropWhile_not (fun c : Nat × Bool => decide (c.1 < i)) b
            rw [Option.mem_def.mp hx] at this
            simpa using this
          have := hmem (k, v) (by rw [heq]; simp)
          simp only at this
          omega
        have hi : Buffer.get ((k, v) :: rest) i = none := by
          refine get_eq_none_of_forall fun c hc => ?_
          rcases List.mem_cons.mp hc with rfl | hc
          · exact Nat.ne_of_gt hki
          · have := (List.pairwise_cons.mp hw).1 c hc
            simp only at this
            omega
        rw [ih hw, ← hd i (Nat.le_refl i), hi]
        refine congrArg₂ List.cons (by simp) (List.map_congr_left fun j _ => ?_)
        rw [← hd (i + 1 + j) (by omega)]

/-- A bit of a run of IBUF, the buffer in canonical form. -/
theorem getElem?_ibufRun {s : State} (h : Buffer.wf s.ibuf) {i n j : Nat} (hj : j < n) :
    (s.ibufRun i n)[j]? = some (s.ibufBit (i + j)) := by
  unfold State.ibufRun State.ibufBit
  rw [readRun_eq_map _ h, List.getElem?_map, List.getElem?_range hj]
  rfl

/-- A bit of a run of OBUF, the buffer in canonical form. -/
theorem getElem?_obufRun {s : State} (h : Buffer.wf s.obuf) {i n j : Nat} (hj : j < n) :
    (s.obufRun i n)[j]? = some (s.obufBit (i + j)) := by
  unfold State.obufRun State.obufBit
  rw [readRun_eq_map _ h, List.getElem?_map, List.getElem?_range hj]
  rfl

@[simp] theorem length_ibufRun (s : State) (i n : Nat) : (s.ibufRun i n).length = n := length_readRun _ _ _ _

@[simp] theorem length_obufRun (s : State) (i n : Nat) : (s.obufRun i n).length = n := length_readRun _ _ _ _

@[simp] theorem length_inputBits (s : State) (n : Nat) : (s.inputBits n).length = n := length_ibufRun s 0 n

/-! ### The buffers of a state -/

/-- IBUF reads the same wherever its contents and its number are the same. -/
theorem ibufBit_congr {s t : State} (h : t.ibuf = s.ibuf) (he : t.ibufEra = s.ibufEra) (i : Nat) :
    t.ibufBit i = s.ibufBit i := by
  unfold State.ibufBit
  rw [h, he]

/-- OBUF reads the same wherever its contents and its number are the same. -/
theorem obufBit_congr {s t : State} (h : t.obuf = s.obuf) (he : t.obufEra = s.obufEra) (i : Nat) :
    t.obufBit i = s.obufBit i := by
  unfold State.obufBit
  rw [h, he]

/-- OBUF after a string has been written from index 0: the string is what its bits read as. -/
theorem obufBit_of_cells {t : State} {out : Bits} (h : t.obuf = Buffer.cells 0 out) (i : Nat) (hi : i < out.length) :
    t.obufBit i = out[i] := by
  unfold State.obufBit
  rw [h, get_cells]
  simp [hi]

end Sys2Proof.Machine
end

