-- ==== Sys2Proof/Laws/Cube.lean ====
section
/-! SUPPORT. The laws of the state array: its lanes and bits, the flat view, and the codec's two functions. -/

namespace Sys2Proof.Machine

/-! ### Lanes and bits -/

@[simp] theorem lane_ofLanes (f : Fin 5 → Fin 5 → Lane) (x y : Fin 5) :
    Cube.lane (Cube.ofLanes f) x y = f x y := by
  fin_cases x <;> fin_cases y <;> rfl

@[simp] theorem bit_ofLanes (f : Fin 5 → Fin 5 → Lane) (x y : Fin 5) (z : Fin 64) :
    Cube.bit (Cube.ofLanes f) x y z = (f x y).getLsbD z.val := by
  unfold Cube.bit
  rw [lane_ofLanes]

theorem cube_ext_lane {a b : Cube} (h : ∀ x y, Cube.lane a x y = Cube.lane b x y) : a = b := by
  apply Vector.ext
  intro n hn
  have := h ⟨n % 5, by omega⟩ ⟨n / 5, by omega⟩
  unfold Cube.lane at this
  have e : 5 * (n / 5) + n % 5 = n := by omega
  simpa only [e] using this

theorem cube_ext_bit {a b : Cube} (h : ∀ x y z, Cube.bit a x y z = Cube.bit b x y z) : a = b := by
  refine cube_ext_lane fun x y => BitVec.eq_of_getLsbD_eq fun i hi => ?_
  exact h x y ⟨i, hi⟩

/-- A state is the state of its own lanes. -/
theorem ofLanes_lane (a : Cube) : Cube.ofLanes (Cube.lane a) = a :=
  cube_ext_lane fun x y => lane_ofLanes _ x y

@[simp] theorem bit_zero (x y : Fin 5) (z : Fin 64) : Cube.bit Cube.zero x y z = false := by
  unfold Cube.zero
  simp

theorem bit_xor (a b : Cube) (x y : Fin 5) (z : Fin 64) :
    Cube.bit (Cube.xor a b) x y z = (Cube.bit a x y z ^^ Cube.bit b x y z) := by
  unfold Cube.xor
  rw [bit_ofLanes, BitVec.getLsbD_xor]
  rfl

theorem zero_eq_replicate : Cube.zero = Vector.replicate 25 0 := by decide

/-! ### Strings as numbers -/

theorem testBit_bitsToNat (bs : Bits) (i : Nat) : (bitsToNat bs).testBit i = bs.getD i false := by
  induction bs generalizing i with
  | nil => simp [bitsToNat]
  | cons b bs ih =>
    unfold bitsToNat
    cases i with
    | zero => cases b <;> simp [Nat.testBit_zero]
    | succ i =>
      have : (b.toNat + 2 * bitsToNat bs) / 2 = bitsToNat bs := by cases b <;> (simp only [Bool.toNat_false, Bool.toNat_true]; omega)
      rw [Nat.testBit_succ, this, ih]
      simp

theorem getLsbD_laneOfBits (bs : Bits) {z : Nat} (hz : z < 64) : (laneOfBits bs).getLsbD z = bs.getD z false := by
  unfold laneOfBits
  rw [BitVec.getLsbD_ofNat, testBit_bitsToNat]
  simp [hz]

/-- The bit of a byte made of eight bits. -/
theorem getLsbD_bitsByte (bs : Bits) {i : Nat} (hi : i < 8) : (bitsByte bs).getLsbD i = bs.getD i false := by
  have e : bs.foldr (fun b n => b.toNat + 2 * n) 0 = bitsToNat bs := by
    induction bs with
    | nil => rfl
    | cons b bs ih => rw [List.foldr_cons, ih]; rfl
  unfold bitsByte
  rw [e, BitVec.getLsbD_ofNat, testBit_bitsToNat]
  simp [hi]

@[simp] theorem length_byteBits (v : BitVec 8) : (byteBits v).length = 8 := by
  simp [byteBits]

theorem getElem?_byteBits (v : BitVec 8) {i : Nat} (hi : i < 8) : (byteBits v)[i]? = some (v.getLsbD i) := by
  simp [byteBits, hi]

/-! ### The flat view -/

@[simp] theorem length_flat (a : Cube) : (Cube.flat a).length = 1600 := by
  simp [Cube.flat]

theorem getElem?_flat (a : Cube) {i : Nat} (h : i < 1600) : (Cube.flat a)[i]? = some (Cube.flatBit a i) := by
  simp [Cube.flat, h]

theorem flatBit_eq_bit (a : Cube) (x y : Fin 5) (z : Fin 64) :
    Cube.flatBit a (64 * (5 * y.val + x.val) + z.val) = Cube.bit a x y z := by
  unfold Cube.flatBit Cube.bit Cube.lane
  have h1 : (64 * (5 * y.val + x.val) + z.val) / 64 = 5 * y.val + x.val := by omega
  have h2 : (64 * (5 * y.val + x.val) + z.val) % 64 = z.val := by omega
  rw [h1, h2]
  have hn : 5 * y.val + x.val < 25 := by omega
  simp [Vector.getD, hn]

/-- R22: bit W·(5y + x) + z of the flat view is A[x][y][z]. -/
theorem getElem?_flat_bit (a : Cube) (x y : Fin 5) (z : Fin 64) :
    (Cube.flat a)[64 * (5 * y.val + x.val) + z.val]? = some (Cube.bit a x y z) := by
  rw [getElem?_flat _ (by omega), flatBit_eq_bit]

/-- Every flat index is the index of one bit of the state. -/
theorem exists_coordinates {i : Nat} (h : i < 1600) :
    ∃ (x y : Fin 5) (z : Fin 64), i = 64 * (5 * y.val + x.val) + z.val := by
  refine ⟨⟨i / 64 % 5, by omega⟩, ⟨i / 64 / 5, by omega⟩, ⟨i % 64, by omega⟩, ?_⟩
  simp only
  omega

/-- R90: A[x][y][z] of an encoded string. -/
theorem bit_ofFlat (s : Bits) (x y : Fin 5) (z : Fin 64) :
    Cube.bit (Cube.ofFlat s) x y z = s.getD (64 * (5 * y.val + x.val) + z.val) false := by
  unfold Cube.ofFlat
  rw [bit_ofLanes, getLsbD_laneOfBits _ z.isLt]
  simp only [List.getD_eq_getElem?_getD]
  rw [List.getElem?_take, if_pos z.isLt, List.getElem?_drop]

theorem ofFlat_flat (a : Cube) : Cube.ofFlat (Cube.flat a) = a := by
  refine cube_ext_bit fun x y z => ?_
  rw [bit_ofFlat, List.getD_eq_getElem?_getD, getElem?_flat_bit]
  rfl

theorem flat_ofFlat {s : Bits} (h : s.length = 1600) : Cube.flat (Cube.ofFlat s) = s := by
  refine List.ext_getElem? fun i => ?_
  rcases Nat.lt_or_ge i 1600 with hi | hi
  · obtain ⟨x, y, z, rfl⟩ := exists_coordinates hi
    have hl : 64 * (5 * y.val + x.val) + z.val < s.length := by omega
    rw [getElem?_flat_bit, bit_ofFlat, List.getD_eq_getElem?_getD, List.getElem?_eq_getElem hl]
    rfl
  · rw [List.getElem?_eq_none (by simpa using hi), List.getElem?_eq_none (by omega)]

/-- Extending a string with zeros changes nothing of what it encodes. -/
theorem ofFlat_append_zeros (s : Bits) (n : Nat) : Cube.ofFlat (s ++ List.replicate n false) = Cube.ofFlat s := by
  refine cube_ext_bit fun x y z => ?_
  rw [bit_ofFlat, bit_ofFlat]
  simp only [List.getD_eq_getElem?_getD, List.getElem?_append]
  split
  · rfl
  · next h =>
    rw [List.getElem?_eq_none (Nat.le_of_not_lt h), List.getElem?_replicate]
    split <;> rfl

/-- Exclusive or of states is exclusive or of their flat strings. -/
theorem flat_xor (a b : Cube) : Cube.flat (Cube.xor a b) = xorBits (Cube.flat a) (Cube.flat b) := by
  refine List.ext_getElem? fun i => ?_
  unfold xorBits
  rcases Nat.lt_or_ge i 1600 with hi | hi
  · obtain ⟨x, y, z, rfl⟩ := exists_coordinates hi
    rw [List.getElem?_zipWith, getElem?_flat_bit, getElem?_flat_bit, getElem?_flat_bit, bit_xor]
  · rw [List.getElem?_eq_none (by simpa using hi), List.getElem?_eq_none (by simpa using hi)]

theorem flat_zero : Cube.flat Cube.zero = List.replicate 1600 false := by
  refine List.ext_getElem? fun i => ?_
  rcases Nat.lt_or_ge i 1600 with hi | hi
  · obtain ⟨x, y, z, rfl⟩ := exists_coordinates hi
    rw [getElem?_flat_bit, bit_zero, List.getElem?_replicate, if_pos hi]
  · rw [List.getElem?_eq_none (by rw [length_flat]; exact hi), List.getElem?_eq_none (by rw [List.length_replicate]; exact hi)]

end Sys2Proof.Machine
end

