-- ==== Sys2Proof/Laws/Decode.lean ====
section
/-! SUPPORT. The laws of the command word's layout: the fields of a laid-out word, and a word from its fields. -/

namespace Sys2Proof

@[simp] theorem opField_layWord (op : BitVec 8) (idx : BitVec 5) : opField (layWord op idx) = op := by
  unfold opField layWord
  refine BitVec.eq_of_getLsbD_eq fun i hi => ?_
  rw [BitVec.getLsbD_extractLsb', BitVec.getLsbD_append]
  simp [hi]

@[simp] theorem idxField_layWord (op : BitVec 8) (idx : BitVec 5) : idxField (layWord op idx) = idx := by
  unfold idxField layWord
  refine BitVec.eq_of_getLsbD_eq fun i hi => ?_
  rw [BitVec.getLsbD_extractLsb', BitVec.getLsbD_append, BitVec.getLsbD_append]
  simp [hi]

@[simp] theorem reservedField_layWord (op : BitVec 8) (idx : BitVec 5) : reservedField (layWord op idx) = 0 := by
  unfold reservedField layWord
  refine BitVec.eq_of_getLsbD_eq fun i hi => ?_
  have h1 : ¬ 13 + i < 8 := by omega
  have h2 : ¬ 13 + i - 8 < 5 := by omega
  rw [BitVec.getLsbD_extractLsb', BitVec.getLsbD_append, BitVec.getLsbD_append]
  simp [h1, h2]

/-- A word whose reserved bits are zero is laid out from its fields. -/
theorem layWord_fields {w : CmdWord} (h : reservedField w = 0) : layWord (opField w) (idxField w) = w := by
  unfold layWord opField idxField
  refine BitVec.eq_of_getLsbD_eq fun i hi => ?_
  rw [BitVec.getLsbD_append, BitVec.getLsbD_append, BitVec.getLsbD_extractLsb', BitVec.getLsbD_extractLsb']
  by_cases h1 : i < 8
  · simp [h1]
  · by_cases h2 : i - 8 < 5
    · have e : 8 + (i - 8) = i := by omega
      simp [h1, h2, e]
    · have h3 : (reservedField w).getLsbD (i - 13) = false := by rw [h]; simp
      unfold reservedField at h3
      rw [BitVec.getLsbD_extractLsb'] at h3
      have e : 13 + (i - 13) = i := by omega
      have hlt : i - 13 < 19 := by omega
      simp [e, hlt] at h3
      simp [h1, h2, h3]

/-- What decoding a laid-out word comes to. -/
theorem decodeWord_layWord (op : BitVec 8) (idx : BitVec 5) :
    decodeWord (layWord op idx) = decodeOp (layWord op idx) := by
  unfold decodeWord
  rw [if_pos (reservedField_layWord op idx)]

theorem decodeC0_layWord (op : BitVec 8) (i : Instr) : decodeC0 (layWord op 0) i = .command i := by
  unfold decodeC0
  rw [if_pos (idxField_layWord op 0)]

theorem decodeCI_layWord (op : BitVec 8) (idx : BitVec 5) (f : BitVec 5 → Instr) (h : (f idx).wellFormed = true) :
    decodeCI (layWord op idx) f = .command (f idx) := by
  unfold decodeCI
  rw [idxField_layWord, if_pos h]

/-- What a word that decodes as a C0 command is. -/
theorem decodeC0_command {w : CmdWord} {i j : Instr} (h : decodeC0 w i = .command j) : j = i ∧ idxField w = 0 := by
  unfold decodeC0 at h
  split at h
  · next h0 => exact ⟨(Decoded.command.inj h).symm, h0⟩
  · cases h

/-- What a word that decodes as a CI command is. -/
theorem decodeCI_command {w : CmdWord} {f : BitVec 5 → Instr} {j : Instr} (h : decodeCI w f = .command j) :
    j = f (idxField w) ∧ j.wellFormed = true := by
  unfold decodeCI at h
  split at h
  · next h0 =>
    cases h
    exact ⟨rfl, h0⟩
  · cases h

end Sys2Proof
end

