-- ==== Sys2Proof/Laws/Padding.lean ====
section
/-! SUPPORT. The laws of pad10*1 that the sponge controller rests on (44_padding.md R160, R161). -/

namespace Sys2Proof.Machine

@[simp] theorem length_pad (x m : Nat) : (pad x m).length = padZeros x m + 2 := by
  simp [pad]

theorem padZeros_lt {x : Nat} (hx : 0 < x) (m : Nat) : padZeros x m < x := Nat.mod_lt _ hx

/-- The padded length is a whole number of blocks, and one block at least. -/
theorem padded_eq_mul {x : Nat} (hx : 0 < x) (m : Nat) :
    ∃ k, 0 < k ∧ m + (padZeros x m + 2) = x * k := by
  have hq := Nat.mod_lt (m + 2) hx
  have hd := Nat.div_add_mod (m + 2) x
  unfold padZeros
  rcases Nat.eq_zero_or_pos ((m + 2) % x) with h0 | h0
  · have hz : (x - (m + 2) % x) % x = 0 := by rw [h0, Nat.sub_zero, Nat.mod_self]
    refine ⟨(m + 2) / x, ?_, by rw [hz]; omega⟩
    rcases Nat.eq_zero_or_pos ((m + 2) / x) with e | e
    · rw [e, h0] at hd
      omega
    · exact e
  · have hz : (x - (m + 2) % x) % x = x - (m + 2) % x := Nat.mod_eq_of_lt (by omega)
    refine ⟨(m + 2) / x + 1, Nat.succ_pos _, ?_⟩
    rw [hz, Nat.mul_add, Nat.mul_one]
    omega

end Sys2Proof.Machine
end

