-- ==== Sys2Proof/Laws/Permutation.lean ====
section
/-! SUPPORT. The laws of the permutation engine: the lanes each step mapping produces, rotation bit by bit, and what the
sequencing of R123 computes. -/

namespace Sys2Proof.Machine

/-! ### Lanes of the step mappings -/

@[simp] theorem lane_theta (a : Cube) (x y : Fin 5) :
    Cube.lane (theta a) x y = Cube.lane a x y ^^^ thetaD a x := lane_ofLanes _ x y

@[simp] theorem lane_rho (a : Cube) (x y : Fin 5) :
    Cube.lane (rho a) x y = (Cube.lane a x y).rotateLeft (rhoOffset x y) := lane_ofLanes _ x y

@[simp] theorem lane_pi (a : Cube) (x y : Fin 5) : Cube.lane (pi a) x y = Cube.lane a (x + 3 * y) x :=
  lane_ofLanes _ x y

@[simp] theorem lane_chi (a : Cube) (x y : Fin 5) :
    Cube.lane (chi a) x y = Cube.lane a x y ^^^ (~~~ Cube.lane a (x + 1) y &&& Cube.lane a (x + 2) y) :=
  lane_ofLanes _ x y

@[simp] theorem lane_iota (a : Cube) (ir : Nat) (x y : Fin 5) :
    Cube.lane (iota a ir) x y =
      if x = 0 ∧ y = 0 then Cube.lane a x y ^^^ rcw ir else Cube.lane a x y := lane_ofLanes _ x y

/-! ### Rotation -/

/-- R105: the bit at z of a rotated lane is the bit at z - n, modulo 64, of the lane. -/
theorem getLsbD_rotateLeft_sub (v : Lane) {n : Nat} (hn : n < 64) (z : Fin 64) :
    (v.rotateLeft n).getLsbD z.val = v.getLsbD (z - Fin.ofNat 64 n).val := by
  have hz := z.isLt
  have hv : (z - Fin.ofNat 64 n).val = (64 - n + z.val) % 64 := by
    rw [Fin.sub_def]
    simp [Nat.mod_eq_of_lt hn]
  rw [BitVec.getLsbD_rotateLeft, hv, Nat.mod_eq_of_lt hn, cond_eq_ite]
  by_cases h : z.val < n
  · rw [if_pos (by simpa using h), Nat.mod_eq_of_lt (by omega)]
  · have e : 64 - n + z.val = (z.val - n) + 64 := by omega
    rw [if_neg (by simpa using h), e, Nat.add_mod_right, Nat.mod_eq_of_lt (by omega)]
    simp [hz]

theorem rhoOffset_lt (x y : Fin 5) : rhoOffset x y < 64 := by
  fin_cases x <;> fin_cases y <;> decide

/-! ### The sequencing of rounds -/

theorem toNat_ir_succ {i : BitVec 5} (h : i.toNat < 24) : (i + 1).toNat = i.toNat + 1 := by
  rw [BitVec.toNat_add]
  simp
  omega

theorem range'_foldl_step {k : Nat} (h : k < 24) (a : Cube) :
    (List.range' k (24 - k)).foldl rnd a = (List.range' (k + 1) (24 - (k + 1))).foldl rnd (rnd a k) := by
  have e : 24 - k = (24 - (k + 1)) + 1 := by omega
  rw [e, List.range'_succ, List.foldl_cons]

/-- R123: from IR the loop performs the rounds IR to 23 in increasing order and ends with IR = 24. -/
theorem roundLoop_eq (n : Nat) (s : State) (h : s.work.ir.toNat ≤ 24) (hn : 24 - s.work.ir.toNat ≤ n) :
    State.roundLoop n s =
      { s with
        a := (List.range' s.work.ir.toNat (24 - s.work.ir.toNat)).foldl rnd s.a
        work := { s.work with ir := 24 } } := by
  induction n generalizing s with
  | zero =>
    have e : s.work.ir.toNat = 24 := by omega
    have e' : s.work.ir = 24 := BitVec.eq_of_toNat_eq e
    unfold State.roundLoop
    simp only [e, Nat.sub_self, List.range'_zero, List.foldl_nil]
    rw [← e']
  | succ n ih =>
    unfold State.roundLoop
    by_cases hlt : s.work.ir.toNat < 24
    · have hs : s.roundStep.work.ir.toNat = s.work.ir.toNat + 1 := by
        simpa using toNat_ir_succ hlt
      rw [if_pos hlt, ih s.roundStep (by omega) (by omega), hs, range'_foldl_step hlt]
      rfl
    · have e : s.work.ir.toNat = 24 := by omega
      have e' : s.work.ir = 24 := BitVec.eq_of_toNat_eq e
      rw [if_neg hlt]
      simp only [e, Nat.sub_self, List.range'_zero, List.foldl_nil]
      rw [← e']

/-- A permutation of `nr` rounds: A becomes keccak_p_state(A, nr), IR ends at 24, nothing else changes. -/
theorem permute_eq (s : State) {nr : Nat} (h : nr ≤ 24) :
    s.permute nr = { s with a := keccakPState s.a nr, work := { s.work with ir := 24 } } := by
  have e : (BitVec.ofNat 5 (24 - nr)).toNat = 24 - nr := by
    rw [BitVec.toNat_ofNat]
    omega
  unfold State.permute
  rw [roundLoop_eq _ _ (by simp only [e]; omega) (by simp only [e]; omega)]
  simp only [e]
  have e2 : 24 - (24 - nr) = nr := by omega
  rw [e2]
  rfl

end Sys2Proof.Machine
end

