-- ==== Sys2Proof/Laws/Sponge.lean ====
section
/-! SUPPORT. What a run of the sponge controller does (43_sponge.md R149): the absorbing loop, the squeezing loop, and the
whole run as one equation, which callers cite instead of unfolding the controller. -/

namespace Sys2Proof.Machine

/-! ### Runs -/

theorem coreStep_idle {s : State} (h : s.phase = .idle) : s.coreStep = s := by
  unfold State.coreStep
  rw [h]

theorem coreRun_idle {s : State} (h : s.phase = .idle) (n : Nat) : State.coreRun n s = s := by
  cases n with
  | zero => rfl
  | succ n => unfold State.coreRun; rw [if_pos h]

/-- A run of n + 1 transitions is one transition and then n. -/
theorem coreRun_succ (n : Nat) (s : State) : State.coreRun (n + 1) s = State.coreRun n s.coreStep := by
  by_cases h : s.phase = .idle
  · rw [coreRun_idle h, coreStep_idle h, coreRun_idle h]
  · conv_lhs => unfold State.coreRun
    rw [if_neg h]

theorem coreStep_absorb_more {s : State} (h : s.phase = .absorb) (hb : s.work.blk < s.work.nblk) :
    s.coreStep = s.absorbBlock := by
  unfold State.coreStep
  rw [h]
  simp [hb]

theorem coreStep_absorb_done {s : State} (h : s.phase = .absorb) (hb : ¬ s.work.blk < s.work.nblk) :
    s.coreStep = { s with phase := .squeeze } := by
  unfold State.coreStep
  rw [h]
  simp [hb]

theorem coreStep_round_more {s : State} (h : s.phase = .round) (hi : s.work.ir.toNat < 24) :
    s.coreStep = s.roundStep := by
  unfold State.coreStep
  rw [h]
  simp [hi]

theorem coreStep_round_done {s : State} (h : s.phase = .round) (hi : ¬ s.work.ir.toNat < 24) :
    s.coreStep = { s with phase := s.work.ret.phase } := by
  unfold State.coreStep
  rw [h]
  simp [hi]

theorem coreStep_squeeze_more {s : State} (h : s.phase = .squeeze)
    (hz : s.work.zlen + s.work.rate < s.work.outLen) : s.coreStep = s.squeezeBlock := by
  unfold State.coreStep
  rw [h]
  simp [hz]

theorem coreStep_squeeze_last {s : State} (h : s.phase = .squeeze)
    (hz : ¬ s.work.zlen + s.work.rate < s.work.outLen) : s.coreStep = s.squeezeLast := by
  unfold State.coreStep
  rw [h]
  simp [hz]

theorem coreStep_finish {s : State} (h : s.phase = .finish) : s.coreStep = s.finishSponge := by
  unfold State.coreStep
  rw [h]

/-! ### The permutation inside the controller -/

theorem coreRun_round (m : Nat) (n : Nat) (s : State) (h : s.phase = .round) (hi : s.work.ir.toNat ≤ 24)
    (hn : 24 - s.work.ir.toNat = n) :
    State.coreRun (n + 1 + m) s =
      State.coreRun m
        { s with
          a := (List.range' s.work.ir.toNat (24 - s.work.ir.toNat)).foldl rnd s.a
          phase := s.work.ret.phase
          work := { s.work with ir := 24 } } := by
  induction n generalizing s with
  | zero =>
    have e : s.work.ir.toNat = 24 := by omega
    have e' : s.work.ir = 24 := BitVec.eq_of_toNat_eq e
    rw [show 0 + 1 + m = m + 1 by omega, coreRun_succ, coreStep_round_done h (by omega)]
    simp only [e, Nat.sub_self, List.range'_zero, List.foldl_nil]
    rw [← e']
  | succ n ih =>
    have hlt : s.work.ir.toNat < 24 := by omega
    have hs : s.roundStep.work.ir.toNat = s.work.ir.toNat + 1 := by simpa using toNat_ir_succ hlt
    rw [show n + 1 + 1 + m = (n + 1 + m) + 1 by omega, coreRun_succ, coreStep_round_more h hlt,
      ih s.roundStep h (by omega) (by omega), hs, range'_foldl_step hlt]
    rfl

/-- From ROUND with IR = 0, 25 transitions apply the full permutation and go on at the return tag (R123, R149). -/
theorem coreRun_permutation (m : Nat) (s : State) (h : s.phase = .round) (hi : s.work.ir = 0) :
    State.coreRun (25 + m) s =
      State.coreRun m
        { s with a := keccakFState s.a, phase := s.work.ret.phase, work := { s.work with ir := 24 } } := by
  have e : s.work.ir.toNat = 0 := by rw [hi]; rfl
  rw [show 25 + m = 24 + 1 + m by omega, coreRun_round m 24 s h (by omega) (by omega), e]
  rfl

/-! ### Absorbing -/

/-- Absorbing on states: a block is XORed in, then the permutation is applied (R145). -/
def absorbCube (a : Cube) (b : Bits) : Cube := keccakFState (Cube.xor a (Cube.ofFlat b))

/-- The blocks of `p` from number `i` on, `n` of them. -/
def blocksFrom (rate : Nat) (p : Bits) (i n : Nat) : List Bits :=
  (List.range' i n).map fun j => (p.drop (j * rate)).take rate

/-- The absorbing loop of R149. -/
theorem coreRun_absorb (m : Nat) (n : Nat) (s : State) (h : s.phase = .absorb)
    (hn : s.work.nblk = s.work.blk + n) :
    ∃ i t, State.coreRun (26 * n + m) s =
      State.coreRun m
        { s with
          a := (blocksFrom s.work.rate s.work.p s.work.blk n).foldl absorbCube s.a
          work := { s.work with blk := s.work.nblk, ir := i, ret := t } } := by
  induction n generalizing s with
  | zero =>
    refine ⟨s.work.ir, s.work.ret, ?_⟩
    have e : s.work.blk = s.work.nblk := by omega
    rw [show 26 * 0 + m = m by omega]
    rcases hw : s.work with ⟨ir, ret, blk, nblk, zlen, p, rate, outLen, c, d, lfsr⟩
    simp only [hw] at e
    subst e
    simp only [blocksFrom, List.range'_zero, List.map_nil, List.foldl_nil]
    rw [← hw]
  | succ n ih =>
    have hlt : s.work.blk < s.work.nblk := by omega
    obtain ⟨i, t, e⟩ := ih
      { s with
        a := keccakFState (Cube.xor s.a (Cube.ofFlat s.currentBlock))
        work := { s.work with blk := s.work.blk + 1, ir := 24, ret := .absorb } }
      h (by simp only; omega)
    refine ⟨i, t, ?_⟩
    rw [show 26 * (n + 1) + m = (25 + (26 * n + m)) + 1 by omega, coreRun_succ, coreStep_absorb_more h hlt,
      coreRun_permutation _ _ rfl rfl]
    have hs : ({ s.absorbBlock with
        a := keccakFState s.absorbBlock.a
        phase := s.absorbBlock.work.ret.phase
        work := { s.absorbBlock.work with ir := 24 } } : State) =
        { s with
          a := keccakFState (Cube.xor s.a (Cube.ofFlat s.currentBlock))
          work := { s.work with blk := s.work.blk + 1, ir := 24, ret := .absorb } } := by
      unfold State.absorbBlock Return.phase
      simp only [h]
    rw [hs, e]
    simp only [blocksFrom, List.range'_succ, List.map_cons, List.foldl_cons]
    rfl

/-- The flat view of absorbing on states is absorbing on bit strings (R121, R145). -/
theorem flat_absorb (rate : Nat) (bs : List Bits) (hb : ∀ b ∈ bs, b.length = rate) (hr : rate ≤ 1600) (a : Cube) :
    Cube.flat (bs.foldl absorbCube a) =
      bs.foldl (fun s b => keccakFBits (xorBits s (b ++ List.replicate (1600 - rate) false))) (Cube.flat a) := by
  induction bs generalizing a with
  | nil => simp only [List.foldl_nil]
  | cons b bs ih =>
    have hl : (b ++ List.replicate (1600 - rate) false).length = 1600 := by
      rw [List.length_append, List.length_replicate, hb b (by simp)]
      omega
    have e : Cube.flat (absorbCube a b) =
        keccakFBits (xorBits (Cube.flat a) (b ++ List.replicate (1600 - rate) false)) := by
      unfold absorbCube keccakFBits
      have e1 : xorBits (Cube.flat a) (b ++ List.replicate (1600 - rate) false) =
          Cube.flat (Cube.xor a (Cube.ofFlat b)) := by
        rw [flat_xor, ← ofFlat_append_zeros b (1600 - rate), flat_ofFlat hl]
      rw [e1, ofFlat_flat]
    rw [List.foldl_cons, List.foldl_cons, ih (fun c hc => hb c (List.mem_cons_of_mem _ hc)), e]

/-- The blocks of R143 are the blocks from number 0 on, each of `rate` bits when the rate divides the length. -/
theorem spongeBlocks_eq {rate k : Nat} {p : Bits} (hr : 0 < rate) (hp : p.length = rate * k) :
    spongeBlocks rate p = blocksFrom rate p 0 k ∧ ∀ b ∈ spongeBlocks rate p, b.length = rate := by
  have e : p.length / rate = k := by rw [hp, Nat.mul_div_cancel_left _ hr]
  unfold spongeBlocks blocksFrom
  rw [e]
  refine ⟨by rw [List.range_eq_range'], fun b hb => ?_⟩
  obtain ⟨i, hi, rfl⟩ := List.mem_map.mp hb
  have hik : i + 1 ≤ k := List.mem_range.mp hi
  have hmul : rate * (i + 1) ≤ rate * k := Nat.mul_le_mul_left _ hik
  rw [List.length_take, List.length_drop, hp, Nat.mul_comm i rate]
  rw [Nat.mul_add, Nat.mul_one] at hmul
  omega

/-! ### Squeezing -/

/-- The state a sponge-family command leaves when it ends without error (R149, R150, R152): OBUF holds `out`. -/
def State.spongeEnd (s : State) (d : Nat) (out : Bits) : State :=
  State.retire { s with a := Cube.zero, obuf := Buffer.cells 0 out, obufEra := s.fresh, phase := .idle } (s.countWord d)

theorem write_after_segment (z bits : Bits) (rest : Buffer) (hrest : ∀ c ∈ rest, z.length ≤ c.1) :
    ∃ rest', Buffer.write (Buffer.cells 0 z ++ rest) z.length bits = Buffer.cells 0 (z ++ bits) ++ rest' ∧
      ∀ c ∈ rest', (z ++ bits).length ≤ c.1 := by
  refine ⟨rest.filter fun c => decide (z.length + bits.length ≤ c.1), ?_, fun c hc => ?_⟩
  · have h1 : (Buffer.cells 0 z).filter (fun c => decide (c.1 < z.length)) = Buffer.cells 0 z :=
      List.filter_eq_self.mpr fun c hc => by
        have := mem_cells_bounds hc
        simp only [decide_eq_true_eq]
        omega
    have h2 : rest.filter (fun c => decide (c.1 < z.length)) = [] :=
      List.filter_eq_nil_iff.mpr fun c hc => by
        have := hrest c hc
        simp only [decide_eq_true_eq]
        omega
    have h3 : (Buffer.cells 0 z).filter (fun c => decide (z.length + bits.length ≤ c.1)) = [] :=
      List.filter_eq_nil_iff.mpr fun c hc => by
        have := mem_cells_bounds hc
        simp only [decide_eq_true_eq]
        omega
    unfold Buffer.write
    rw [List.filter_append, List.filter_append, h1, h2, h3, cells_append]
    simp
  · have := (List.mem_filter.mp hc).2
    simp only [decide_eq_true_eq] at this
    rw [List.length_append]
    exact this

theorem cut_segment {z : Bits} {rest : Buffer} (hrest : ∀ c ∈ rest, z.length ≤ c.1) :
    Buffer.cut (Buffer.cells 0 z ++ rest) z.length = Buffer.cells 0 z := by
  have h1 : (Buffer.cells 0 z).filter (fun c => decide (c.1 < z.length)) = Buffer.cells 0 z :=
    List.filter_eq_self.mpr fun c hc => by
      have := mem_cells_bounds hc
      simp only [decide_eq_true_eq]
      omega
  have h2 : rest.filter (fun c => decide (c.1 < z.length)) = [] :=
    List.filter_eq_nil_iff.mpr fun c hc => by
      have := hrest c hc
      simp only [decide_eq_true_eq]
      omega
  unfold Buffer.cut
  rw [List.filter_append, h1, h2, List.append_nil]

theorem outputBlocks_pos (r d : Nat) : 0 < outputBlocks r d := by
  unfold outputBlocks
  omega

theorem outputBlocks_small {r d : Nat} (h : d ≤ r) : outputBlocks r d = 1 := by
  unfold outputBlocks
  rcases Nat.eq_zero_or_pos d with h0 | h0
  · subst h0
    rcases Nat.eq_zero_or_pos r with hr | hr
    · subst hr; rfl
    · rw [Nat.div_eq_of_lt (by omega)]; rfl
  · rw [show (d + r - 1) = (d - 1) + r by omega, Nat.add_div_right _ (by omega), Nat.div_eq_of_lt (by omega)]
    rfl

theorem outputBlocks_step {r d : Nat} (hr : 0 < r) (h : r < d) : outputBlocks r d = outputBlocks r (d - r) + 1 := by
  unfold outputBlocks
  have e : d + r - 1 = (d - r + r - 1) + r := by omega
  have hpos : 0 < (d - r + r - 1) / r := Nat.div_pos (by omega) hr
  rw [e, Nat.add_div_right _ hr]
  omega

theorem flat_keccakFState (a : Cube) : keccakFBits (Cube.flat a) = Cube.flat (keccakFState a) := by
  unfold keccakFBits
  rw [ofFlat_flat]

theorem length_take_flat (a : Cube) {r : Nat} (h : r ≤ 1600) : ((Cube.flat a).take r).length = r := by
  rw [List.length_take, length_flat]
  omega

/-- The squeezing loop of R149, from SQUEEZE with ZLEN bits `z` in OBUF to the end of the command. -/
theorem coreRun_squeeze (n : Nat) (s : State) (z : Bits) (rest : Buffer) (h : s.phase = .squeeze)
    (hr : 0 < s.work.rate) (hr' : s.work.rate ≤ 1600) (hz : s.work.zlen = z.length)
    (hzd : z.length = 0 ∨ z.length < s.work.outLen)
    (ho : s.obuf = Buffer.cells 0 z ++ rest) (hrest : ∀ c ∈ rest, z.length ≤ c.1)
    (hn : s.work.outLen ≤ z.length + n) :
    State.coreRun (26 * (outputBlocks s.work.rate (s.work.outLen - z.length) - 1) + 2) s =
      s.spongeEnd s.work.outLen
        ((squeezeLoop keccakFBits s.work.rate s.work.outLen (n + 1) (Cube.flat s.a) z).take s.work.outLen) := by
  induction n generalizing s z rest with
  | zero =>
    exact squeeze_last s z rest h hr' hz (by omega) ho hrest (by omega) 0
  | succ n ih =>
    by_cases hlast : s.work.outLen ≤ z.length + s.work.rate
    · exact squeeze_last s z rest h hr' hz (by omega) ho hrest hlast (n + 1)
    · have hl := length_take_flat s.a hr'
      obtain ⟨rest', hw, hrest'⟩ := write_after_segment z ((Cube.flat s.a).take s.work.rate) rest hrest
      have hlen : (z ++ (Cube.flat s.a).take s.work.rate).length = z.length + s.work.rate := by
        rw [List.length_append, hl]
      have hstep := outputBlocks_step (d := s.work.outLen - z.length) hr (by omega)
      have hpos := outputBlocks_pos s.work.rate (s.work.outLen - z.length - s.work.rate)
      have key := ih
        { s.squeezeBlock with
          a := keccakFState s.squeezeBlock.a
          phase := s.squeezeBlock.work.ret.phase
          work := { s.squeezeBlock.work with ir := 24 } }
        (z ++ (Cube.flat s.a).take s.work.rate) rest' rfl hr hr'
        (by rw [hlen, ← hz]; rfl) (by rw [hlen]; exact .inr (by simp only [squeezeBlock_work]; omega))
        (by rw [← hw, ← hz, ← ho]; rfl) hrest' (by rw [hlen]; simp only [squeezeBlock_work]; omega)
      rw [hlen] at key
      simp only [squeezeBlock_work] at key
      rw [hstep, show 26 * (outputBlocks s.work.rate (s.work.outLen - z.length - s.work.rate) + 1 - 1) + 2 =
          (25 + (26 * (outputBlocks s.work.rate (s.work.outLen - (z.length + s.work.rate)) - 1) + 2)) + 1 by
            rw [show s.work.outLen - (z.length + s.work.rate) = s.work.outLen - z.length - s.work.rate by omega]
            omega,
        coreRun_succ, coreStep_squeeze_more h (by omega), coreRun_permutation _ _ rfl rfl]
      simp only [squeezeBlock_work]
      rw [key]
      have hgo : squeezeLoop keccakFBits s.work.rate s.work.outLen (n + 1 + 1) (Cube.flat s.a) z =
          squeezeLoop keccakFBits s.work.rate s.work.outLen (n + 1) (keccakFBits (Cube.flat s.a))
            (z ++ (Cube.flat s.a).take s.work.rate) := by
        conv_lhs => unfold squeezeLoop
        rw [if_neg (by rw [hlen]; omega)]
      rw [hgo, flat_keccakFState]
      rfl
where
  squeeze_last (s : State) (z : Bits) (rest : Buffer) (h : s.phase = .squeeze) (hr' : s.work.rate ≤ 1600)
      (hz : s.work.zlen = z.length) (hzd : z.length ≤ s.work.outLen)
      (ho : s.obuf = Buffer.cells 0 z ++ rest) (hrest : ∀ c ∈ rest, z.length ≤ c.1)
      (hlast : s.work.outLen ≤ z.length + s.work.rate) (n : Nat) :
      State.coreRun (26 * (outputBlocks s.work.rate (s.work.outLen - z.length) - 1) + 2) s =
        s.spongeEnd s.work.outLen
          ((squeezeLoop keccakFBits s.work.rate s.work.outLen (n + 1) (Cube.flat s.a) z).take s.work.outLen) := by
    have hl := length_take_flat s.a (r := s.work.outLen - z.length) (by omega)
    have hl' := length_take_flat s.a hr'
    obtain ⟨rest', hw, hrest'⟩ := write_after_segment z ((Cube.flat s.a).take (s.work.outLen - z.length)) rest hrest
    have hlen : (z ++ (Cube.flat s.a).take (s.work.outLen - z.length)).length = s.work.outLen := by
      rw [List.length_append, hl]
      omega
    have hout : (squeezeLoop keccakFBits s.work.rate s.work.outLen (n + 1) (Cube.flat s.a) z).take s.work.outLen =
        z ++ (Cube.flat s.a).take (s.work.outLen - z.length) := by
      unfold squeezeLoop
      rw [if_pos (by rw [List.length_append, hl']; omega), List.take_append, List.take_of_length_le hzd, List.take_take]
      congr 2
      omega
    have hcut : Buffer.cut s.squeezeLast.obuf s.work.outLen =
        Buffer.cells 0 (z ++ (Cube.flat s.a).take (s.work.outLen - z.length)) := by
      have := cut_segment hrest'
      rw [hlen, ← hw] at this
      rw [squeezeLast_obuf, ho, hz]
      exact this
    rw [outputBlocks_small (by omega), show 26 * (1 - 1) + 2 = 0 + 1 + 1 by omega, coreRun_succ, coreRun_succ,
      coreStep_squeeze_last h (by omega), coreStep_finish rfl, hout]
    unfold State.finishSponge
    simp only [squeezeLast_work]
    rw [hcut]
    rfl

/-! ### The whole run -/

/-- What `runSponge` does, once and for all (R149, R150): at a legal rate it ends in IDLE with the sponge function's output
in OBUF, A zero and RESULT d, and nothing else of the host's side changed. -/
theorem runSponge_eq (s : State) {r : Nat} (d : Nat) (n : Bits) (hr : 0 < r) (hr' : r ≤ 1600) :
    s.runSponge r d n = s.spongeEnd d (keccakSponge r n d) := by
  obtain ⟨k, hk, hlen⟩ := padded_eq_mul hr n.length
  have hp : (n ++ pad r n.length).length = r * k := by
    rw [List.length_append, length_pad]
    exact hlen
  have hnb : (n ++ pad r n.length).length / r = k := by rw [hp, Nat.mul_div_cancel_left _ hr]
  obtain ⟨hblocks, hblen⟩ := spongeBlocks_eq (p := n ++ pad r n.length) hr hp
  have hpos := outputBlocks_pos r d
  unfold State.runSponge transitionBound
  obtain ⟨i, t, e⟩ := coreRun_absorb (26 * (outputBlocks r d - 1) + 2 + 1) k (s.startSponge r d n) rfl
    (by rw [startSponge_work]; simp only [hnb, Nat.zero_add])
  rw [hnb, show 26 * (k + outputBlocks r d - 1) + 3 = 26 * k + (26 * (outputBlocks r d - 1) + 2 + 1) by omega, e,
    coreRun_succ, coreStep_absorb_done rfl (by simp)]
  simp only [startSponge_work]
  have hsq := coreRun_squeeze d
    { s.startSponge r d n with
      a := (blocksFrom r (n ++ pad r n.length) 0 k).foldl absorbCube (s.startSponge r d n).a
      phase := .squeeze
      work := { (s.startSponge r d n).work with blk := (s.startSponge r d n).work.nblk, ir := i, ret := t } }
    [] s.obuf rfl hr hr' rfl (.inl rfl) rfl (by simp) (by simp [startSponge_work])
  simp only [startSponge_work, List.length_nil, Nat.sub_zero] at hsq
  rw [hsq]
  have hflat : Cube.flat ((blocksFrom r (n ++ pad r n.length) 0 k).foldl absorbCube (s.startSponge r d n).a) =
      spongeAbsorb keccakFBits r (n ++ pad r n.length) := by
    rw [← hblocks, flat_absorb r _ hblen hr']
    unfold spongeAbsorb
    rw [startSponge_a, flat_zero]
  rw [hflat]
  rfl

end Sys2Proof.Machine
end

