-- ==== Sys2Proof/Laws/SpongeFunction.lean ====
section
/-! SUPPORT. The lengths of the sponge function's strings (43_sponge.md R140, R147). -/

namespace Sys2Proof.Machine

@[simp] theorem length_keccakFBits (s : Bits) : (keccakFBits s).length = 1600 := length_flat _

theorem length_spongeAbsorb (rate : Nat) (p : Bits) : (spongeAbsorb keccakFBits rate p).length = 1600 := by
  unfold spongeAbsorb
  generalize spongeBlocks rate p = bs
  generalize hs : List.replicate 1600 false = s
  have hl : s.length = 1600 := by rw [← hs, List.length_replicate]
  clear hs
  induction bs generalizing s with
  | nil => simpa only [List.foldl_nil] using hl
  | cons b bs ih => rw [List.foldl_cons]; exact ih _ (length_keccakFBits _)

/-- The loop of R146 yields at least `d` bits when it is given enough rounds. -/
theorem le_length_squeezeLoop {rate d : Nat} (hr : 0 < rate) (n : Nat) {s z : Bits} (hs : s.length = 1600)
    (hn : d ≤ z.length + n) : d ≤ (squeezeLoop keccakFBits rate d n s z).length := by
  induction n generalizing s z with
  | zero => simpa [squeezeLoop] using hn
  | succ n ih =>
    unfold squeezeLoop
    split
    · assumption
    · refine ih (length_keccakFBits _) ?_
      rw [List.length_append, List.length_take, hs]
      omega

/-- R140, R147: the sponge function's output is exactly `d` bits. -/
theorem length_keccakSponge {rate : Nat} (hr : 0 < rate) (input : Bits) (d : Nat) :
    (keccakSponge rate input d).length = d := by
  unfold keccakSponge sponge
  rw [List.length_take]
  have := le_length_squeezeLoop (d := d) hr (d + 1) (z := []) (length_spongeAbsorb rate (input ++ pad rate input.length))
    (by simp)
  omega

end Sys2Proof.Machine
end

