-- ==== Sys2Proof/Laws/Exec.lean ====
section
/-! SUPPORT. The meanings as equations where their checks pass, and the frame of each way a command ends. Callers cite these
instead of unfolding a meaning. -/

namespace Sys2Proof.Machine

/-! ### Frames of the two ways a command ends -/

theorem keepsHostSide_raise (s : State) (e : ErrorKind) : KeepsHostSide s (s.raise e) :=
  ⟨rfl, rfl, rfl, rfl, fun _ => rfl, rfl, rfl, rfl⟩

theorem keepsHostSide_retire {s t : State} (h : KeepsHostSide s t) (v : Word) : KeepsHostSide s (t.retire v) :=
  ⟨h.cmd, h.arg0, h.arg1, h.len, h.ibuf, h.maxBits, h.host, h.answer⟩

theorem keepsHostSide_emit (s : State) (out : Bits) : KeepsHostSide s (s.emit out) :=
  ⟨rfl, rfl, rfl, rfl, fun _ => rfl, rfl, rfl, rfl⟩

theorem keepsHostSide_mapA (s : State) (f : Cube → Cube) : KeepsHostSide s (s.mapA f) :=
  ⟨rfl, rfl, rfl, rfl, fun _ => rfl, rfl, rfl, rfl⟩

theorem keepsHostSide_spongeEnd (s : State) (d : Nat) (out : Bits) : KeepsHostSide s (s.spongeEnd d out) :=
  ⟨rfl, rfl, rfl, rfl, fun _ => rfl, rfl, rfl, rfl⟩

theorem keepsObuf_raise (s : State) (e : ErrorKind) : KeepsObuf s (s.raise e) := fun _ => rfl

theorem keepsObuf_mapA (s : State) (f : Cube → Cube) : KeepsObuf s (s.mapA f) := fun _ => rfl

theorem obufHolds_emit (s : State) (out : Bits) (v : Word) : ObufHolds ((s.emit out).retire v) out :=
  fun i hi => obufBit_of_cells rfl i hi

theorem obufHolds_spongeEnd (s : State) (d : Nat) (out : Bits) : ObufHolds (s.spongeEnd d out) out :=
  fun i hi => obufBit_of_cells rfl i hi

/-! ### Meanings whose checks pass -/

theorem execKeccakp_ok {nr : BitVec 5} (h : nr.toNat ≤ 24) (s : State) :
    execKeccakp nr s = .next (State.retire { s with a := keccakPState s.a nr.toNat } 0) := by
  unfold execKeccakp idxOperand
  rw [if_neg (by omega), permute_eq s h]
  rfl

theorem execKeccakf_eq (s : State) : execKeccakf s = .next (s.mapA keccakFState) := by
  unfold execKeccakf
  rw [permute_eq s (Nat.le_refl 24)]
  rfl

theorem execSponge_ok {s : State} (hm : s.exceeds s.len.toNat = false) (hd : s.exceeds s.arg1.toNat = false)
    (h0 : 0 < s.arg0.toNat) (h1 : s.arg0.toNat < 1600) :
    execSponge s =
      .next (s.spongeEnd s.arg1.toNat (keccakSponge s.arg0.toNat (s.inputBits s.len.toNat) s.arg1.toNat)) := by
  unfold execSponge State.lenOperand State.arg0Operand State.arg1Operand
  rw [if_neg (by simp [hm, hd]), if_neg (by omega), runSponge_eq s _ _ h0 (by omega)]

theorem execKeccak_ok {s : State} (hm : s.exceeds (s.len.toNat + 2) = false) (hc : s.halfExceeds s.arg0.toNat = false)
    (he : s.arg0.toNat % 2 = 0) (h0 : 0 < s.arg0.toNat) (h1 : s.arg0.toNat < 1600) :
    execKeccak s =
      .next (s.spongeEnd (s.arg0.toNat / 2) (keccakFunction s.arg0.toNat (s.inputBits s.len.toNat))) := by
  unfold execKeccak State.lenOperand State.arg0Operand
  rw [if_neg (by simp [hm, hc]), if_neg (by omega), if_neg (by omega)]
  unfold State.runKeccak keccakFunction
  rw [runSponge_eq s _ _ (by omega) (by omega)]

theorem execDigest_ok {s : State} (hm : s.exceeds (8 * s.len.toNat + 2) = false)
    (hc : s.halfExceeds s.arg0.toNat = false) (he : s.arg0.toNat % 16 = 0) (h0 : 0 < s.arg0.toNat)
    (h1 : s.arg0.toNat < 1600) :
    execDigest s =
      .next (s.spongeEnd (s.arg0.toNat / 2) (keccakFunction s.arg0.toNat (s.inputBits (8 * s.len.toNat)))) := by
  unfold execDigest State.lenBytesOperand State.arg0Operand
  rw [if_neg (by simp [hm, hc]), if_neg (by omega), if_neg (by omega)]
  unfold State.runKeccak keccakFunction
  rw [runSponge_eq s _ _ (by omega) (by omega)]

/-! ### Every meaning, once -/

theorem execSponge_cases (s : State) :
    (∃ e, execSponge s = .next (s.raise e)) ∨
      (s.exceeds s.len.toNat = false ∧ s.exceeds s.arg1.toNat = false ∧ 0 < s.arg0.toNat ∧ s.arg0.toNat < 1600) := by
  unfold execSponge State.lenOperand State.arg0Operand State.arg1Operand
  split
  · exact .inl ⟨_, rfl⟩
  · next h =>
    split
    · exact .inl ⟨_, rfl⟩
    · rw [Bool.or_eq_true, not_or, Bool.not_eq_true, Bool.not_eq_true] at h
      exact .inr ⟨h.1, h.2, by omega, by omega⟩

theorem execKeccak_cases (s : State) :
    (∃ e, execKeccak s = .next (s.raise e)) ∨
      (s.exceeds (s.len.toNat + 2) = false ∧ s.halfExceeds s.arg0.toNat = false ∧ s.arg0.toNat % 2 = 0 ∧
        0 < s.arg0.toNat ∧ s.arg0.toNat < 1600) := by
  unfold execKeccak State.lenOperand State.arg0Operand
  split
  · exact .inl ⟨_, rfl⟩
  · next h =>
    split
    · exact .inl ⟨_, rfl⟩
    · split
      · exact .inl ⟨_, rfl⟩
      · rw [Bool.or_eq_true, not_or, Bool.not_eq_true, Bool.not_eq_true] at h
        exact .inr ⟨h.1, h.2, by omega, by omega, by omega⟩

theorem execDigest_cases (s : State) :
    (∃ e, execDigest s = .next (s.raise e)) ∨
      (s.exceeds (8 * s.len.toNat + 2) = false ∧ s.halfExceeds s.arg0.toNat = false ∧ s.arg0.toNat % 16 = 0 ∧
        0 < s.arg0.toNat ∧ s.arg0.toNat < 1600) := by
  unfold execDigest State.lenBytesOperand State.arg0Operand
  split
  · exact .inl ⟨_, rfl⟩
  · next h =>
    split
    · exact .inl ⟨_, rfl⟩
    · split
      · exact .inl ⟨_, rfl⟩
      · rw [Bool.or_eq_true, not_or, Bool.not_eq_true, Bool.not_eq_true] at h
        exact .inr ⟨h.1, h.2, by omega, by omega, by omega⟩

/-- Where half of `c` does not exceed MAXBITS, an output of c/2 bits does not either. -/
theorem exceeds_half {s : State} {c : Nat} (h : s.halfExceeds c = false) : s.exceeds (c / 2) = false := by
  unfold State.halfExceeds at h
  unfold State.exceeds
  split <;> simp_all
  omega

/-- The four ways a command ends: with an error; without one, A perhaps changed; with a string in OBUF; as the sponge
controller ends. -/
inductive Ending (s : State) : Instr → State → Prop where
  | raised (i : Instr) (e : ErrorKind) : Ending s i (s.raise e)
  | plain (i : Instr) (a : Cube) (v : Word) : Ending s i (State.retire { s with a := a } v)
  | output (i : Instr) (out : Bits) (v : Word) (hi : i ∈ [Instr.decode, .pad]) (hl : s.exceeds out.length = false) :
      Ending s i ((s.emit out).retire v)
  | sponge (i : Instr) (d : Nat) (out : Bits) (hi : i ∈ [Instr.sponge, .keccak, .digest]) (hd : out.length = d)
      (hl : s.exceeds d = false) : Ending s i (s.spongeEnd d out)

/-- Everything a command can do, in one lemma: callers take the four cases instead of unfolding sixteen meanings. -/
theorem exec_ending (i : Instr) (s : State) : ∃ t, exec i s = .next t ∧ Ending s i t := by
  cases i with
  | encode =>
    show ∃ t, execEncode s = _ ∧ _
    unfold execEncode
    split
    · exact ⟨_, rfl, .raised _ _⟩
    · split
      · exact ⟨_, rfl, .raised _ _⟩
      · split
        · exact ⟨_, rfl, .raised _ _⟩
        · exact ⟨_, rfl, .plain _ _ _⟩
  | decode =>
    show ∃ t, execDecode s = _ ∧ _
    unfold execDecode
    split
    · exact ⟨_, rfl, .raised _ _⟩
    · next h => exact ⟨_, rfl, .output _ _ _ (by simp) (by rw [length_flat]; simpa using h)⟩
  | theta => exact ⟨_, rfl, .plain _ _ _⟩
  | rho => exact ⟨_, rfl, .plain _ _ _⟩
  | pi => exact ⟨_, rfl, .plain _ _ _⟩
  | chi => exact ⟨_, rfl, .plain _ _ _⟩
  | iota ir =>
    show ∃ t, execIota ir s = _ ∧ _
    unfold execIota
    split
    · exact ⟨_, rfl, .raised _ _⟩
    · exact ⟨_, rfl, .plain _ _ _⟩
  | rnd ir =>
    show ∃ t, execRnd ir s = _ ∧ _
    unfold execRnd
    split
    · exact ⟨_, rfl, .raised _ _⟩
    · exact ⟨_, rfl, .plain _ _ _⟩
  | keccakp nr =>
    by_cases h : nr.toNat ≤ 24
    · exact ⟨_, execKeccakp_ok h s, .plain _ _ _⟩
    · refine ⟨_, ?_, .raised _ .unsupportedVariant⟩
      show execKeccakp nr s = _
      unfold execKeccakp idxOperand
      rw [if_pos (by omega)]
  | keccakf => exact ⟨_, execKeccakf_eq s, .plain _ _ _⟩
  | rcbit => exact ⟨_, rfl, .plain _ s.a _⟩
  | rcword ir =>
    show ∃ t, execRcword ir s = _ ∧ _
    unfold execRcword
    split
    · exact ⟨_, rfl, .raised _ _⟩
    · exact ⟨_, rfl, .plain _ s.a _⟩
  | pad =>
    show ∃ t, execPad s = _ ∧ _
    unfold execPad
    split
    · exact ⟨_, rfl, .raised _ _⟩
    · split
      · exact ⟨_, rfl, .raised _ _⟩
      · next h => exact ⟨_, rfl, .output _ _ _ (by simp) (by rw [length_pad]; simpa using h)⟩
  | sponge =>
    rcases execSponge_cases s with ⟨e, he⟩ | ⟨h1, h2, h3, h4⟩
    · exact ⟨_, he, .raised _ _⟩
    · exact ⟨_, execSponge_ok h1 h2 h3 h4, .sponge _ _ _ (by simp) (length_keccakSponge h3 _ _) h2⟩
  | keccak =>
    rcases execKeccak_cases s with ⟨e, he⟩ | ⟨h1, h2, h3, h4, h5⟩
    · exact ⟨_, he, .raised _ _⟩
    · exact ⟨_, execKeccak_ok h1 h2 h3 h4 h5,
        .sponge _ _ _ (by simp) (length_keccakSponge (by omega) _ _) (exceeds_half h2)⟩
  | digest =>
    rcases execDigest_cases s with ⟨e, he⟩ | ⟨h1, h2, h3, h4, h5⟩
    · exact ⟨_, he, .raised _ _⟩
    · exact ⟨_, execDigest_ok h1 h2 h3 h4 h5,
        .sponge _ _ _ (by simp) (length_keccakSponge (by omega) _ _) (exceeds_half h2)⟩

end Sys2Proof.Machine
end

