-- ==== Sys2Proof/Laws/PerInstr.lean ====
section
/-! SUPPORT. A statement about every command, proved command by command: the word of a command lies in its row of the opcode
map (30_encoding.md R74). -/

namespace Sys2Proof.Laws.TableWord

/-- The encoded word agrees with the row's match value on the row's mask. -/
def Statement (i : Instr) : Prop := encodeWord i &&& opcodeMask i = opcodeMatch i

theorem encode : Statement .encode := by unfold Statement; decide

theorem decode : Statement .decode := by unfold Statement; decide

theorem theta : Statement .theta := by unfold Statement; decide

theorem rho : Statement .rho := by unfold Statement; decide

theorem pi : Statement .pi := by unfold Statement; decide

theorem chi : Statement .chi := by unfold Statement; decide

theorem iota (ir : BitVec 5) : Statement (.iota ir) := by unfold Statement; revert ir; decide

theorem rnd (ir : BitVec 5) : Statement (.rnd ir) := by unfold Statement; revert ir; decide

theorem keccakp (nr : BitVec 5) : Statement (.keccakp nr) := by unfold Statement; revert nr; decide

theorem keccakf : Statement .keccakf := by unfold Statement; decide

theorem rcbit : Statement .rcbit := by unfold Statement; decide

theorem rcword (ir : BitVec 5) : Statement (.rcword ir) := by unfold Statement; revert ir; decide

theorem pad : Statement .pad := by unfold Statement; decide

theorem sponge : Statement .sponge := by unfold Statement; decide

theorem keccak : Statement .keccak := by unfold Statement; decide

theorem digest : Statement .digest := by unfold Statement; decide

end Sys2Proof.Laws.TableWord
end

