-- ==== Sys2Proof/Laws/RoundConstant.lean ====
section
/-! SUPPORT. What the generated constant words hold, bit by bit, for every round index. -/

namespace Sys2Proof.Machine

/-- A lane whose one bit, at p, is b. -/
theorem getLsbD_spread (b : Bool) (p z : Nat) (hz : z < 64) :
    ((BitVec.ofBool b).setWidth 64 <<< p : Lane).getLsbD z = (b && decide (z = p)) := by
  rcases Nat.lt_trichotomy z p with h | h | h
  · simp [BitVec.getLsbD_shiftLeft, h, Nat.ne_of_lt h]
  · subst h; simp [hz]
  · have h1 : z - p ≠ 0 := by omega
    simp [hz, Nat.ne_of_gt h, h1]

/-- R134 for every round index: bit 2^j - 1 of RCW[ir] is rc(j + 7·ir) for j = 0..6, and every other bit is 0. -/
theorem getLsbD_rcw (ir z : Nat) (hz : z < 64) :
    (rcw ir).getLsbD z = (List.range 7).any fun j => decide (z = 2 ^ j - 1) && rc (j + 7 * ir) := by
  simp only [rcw, List.range, List.range.loop, List.foldl, List.any, BitVec.getLsbD_or, getLsbD_spread _ _ _ hz]
  simp [Bool.and_comm, Bool.or_assoc]

/-- The bit of RCW[ir] at 2^j - 1. -/
theorem getLsbD_rcw_pow {ir j : Nat} (hj : j < 7) : (rcw ir).getLsbD (2 ^ j - 1) = rc (j + 7 * ir) := by
  rw [getLsbD_rcw _ _ (by interval_cases j <;> decide)]
  interval_cases j <;> simp [List.range, List.range.loop]

/-- Every bit of RCW[ir] at no 2^j - 1 is 0. -/
theorem getLsbD_rcw_other {ir z : Nat} (h : ∀ j < 7, z ≠ 2 ^ j - 1) : (rcw ir).getLsbD z = false := by
  by_cases hz : z < 64
  · rw [getLsbD_rcw _ _ hz, List.any_eq_false]
    intro j hj
    simp [h j (by simpa using hj)]
  · exact BitVec.getLsbD_of_ge _ _ (by omega)

end Sys2Proof.Machine
end

