-- ==== Sys2Proof/Laws/Step.lean ====
section
/-! SUPPORT. What a step does, case by case: the running controller, a word written to CMD, an access of the host, nothing.
Callers cite these instead of unfolding the step. -/

namespace Sys2Proof.Machine

theorem step_running {s : State} (h : s.phase ≠ .idle) : step s = .next s.coreStep := by
  unfold step agentStep
  rw [if_neg h]

theorem step_cmd {s : State} {w : CmdWord} (h : s.phase = .idle) (hc : s.cmd = some w) :
    step s = issueWord w { s with cmd := none } := by
  unfold step agentStep idleStep
  rw [if_pos h, hc]

theorem step_host {s : State} {x : Access} {rest : List Access} (h : s.phase = .idle) (hc : s.cmd = none)
    (hh : s.host = x :: rest) : step s = x.perform { s with host := rest } := by
  unfold step agentStep idleStep
  rw [if_pos h, hc, hh]

/-- A word is issued as a command or raises UnsupportedVariant. -/
theorem issueWord_cases (w : CmdWord) (s : State) :
    (∃ i, decodeWord w = .command i ∧ issueWord w s = exec i s) ∨
      (∃ r, decodeWord w = .reject r ∧ issueWord w s = .next (s.raise .unsupportedVariant)) := by
  unfold issueWord
  cases decodeWord w with
  | command i => exact .inl ⟨i, rfl, rfl⟩
  | reject r => exact .inr ⟨r, rfl, rfl⟩

/-- A host access to bits that exist does what it does. -/
theorem ifBits_ok {s t : State} {n : Nat} (h : s.exceeds n = false) : s.ifBits n t = .next t := by
  unfold State.ifBits
  simp [h]

/-- A host access to bits that do not exist is a fault. -/
theorem ifBits_fault {s t : State} {n : Nat} (h : s.exceeds n = true) : s.ifBits n t = .fault .noSuchBufferBit := by
  unfold State.ifBits
  rw [if_pos h]

theorem ifBits_next {s t u : State} {n : Nat} (h : s.ifBits n t = .next u) : u = t ∧ s.exceeds n = false := by
  unfold State.ifBits at h
  split at h
  · cases h
  · next he =>
    cases h
    exact ⟨rfl, by simpa using he⟩

/-- After a write of IBUF the written bits read as written and all others as before. -/
theorem ibufBit_write {s t : State} {i : Nat} {bits : Bits} (ht : t.ibuf = Buffer.write s.ibuf i bits)
    (he : t.ibufEra = s.ibufEra) :
    (∀ j (h : j < bits.length), t.ibufBit (i + j) = bits[j]) ∧
      (∀ j, j < i ∨ i + bits.length ≤ j → t.ibufBit j = s.ibufBit j) := by
  unfold State.ibufBit
  rw [ht, he]
  refine ⟨fun j h => ?_, fun j h => ?_⟩
  · rw [get_write, if_pos (by omega)]
    simp [h]
  · rw [get_write, if_neg (by omega)]

end Sys2Proof.Machine
end

