-- ==== Sys2Proof/Tests/Slice0.lean ====
section
/-! SUPPORT. Tests of single steps against 95_test_vectors.md and the words of 30_encoding.md, and for each obligation with
hypotheses a witness that meets them. -/

namespace Sys2Proof.Tests

open Sys2Proof Sys2Proof.Machine

/-! ### Ill-formed commands (R77) -/

theorem test_illformed_iota : (Instr.iota 24).wellFormed = false ∧ (Instr.iota 23).wellFormed = true := by decide

theorem test_illformed_rnd : (Instr.rnd 24).wellFormed = false ∧ (Instr.rnd 23).wellFormed = true := by decide

theorem test_illformed_keccakp : (Instr.keccakp 25).wellFormed = false ∧ (Instr.keccakp 24).wellFormed = true := by
  decide

theorem test_illformed_rcword : (Instr.rcword 24).wellFormed = false ∧ (Instr.rcword 23).wellFormed = true := by decide

/-! ### Command words written out from R70, R71 and R74: 19 reserved bits, IDX, OP -/

theorem test_decode_encode : decodeWord 0b00000000000000000000000000000001 = .command .encode := by decide

theorem test_decode_decode : decodeWord 0b00000000000000000000000000000010 = .command .decode := by decide

theorem test_decode_theta : decodeWord 0b00000000000000000000000000010000 = .command .theta := by decide

theorem test_decode_rho : decodeWord 0b00000000000000000000000000010001 = .command .rho := by decide

theorem test_decode_pi : decodeWord 0b00000000000000000000000000010010 = .command .pi := by decide

theorem test_decode_chi : decodeWord 0b00000000000000000000000000010011 = .command .chi := by decide

theorem test_decode_iota : decodeWord 0b00000000000000000001011100010100 = .command (.iota 23) := by decide

theorem test_decode_rnd : decodeWord 0b00000000000000000001011000010101 = .command (.rnd 22) := by decide

theorem test_decode_keccakp : decodeWord 0b00000000000000000001100000010110 = .command (.keccakp 24) := by decide

theorem test_decode_keccakf : decodeWord 0b00000000000000000000000000010111 = .command .keccakf := by decide

theorem test_decode_rcbit : decodeWord 0b00000000000000000000000000100000 = .command .rcbit := by decide

theorem test_decode_rcword : decodeWord 0b00000000000000000000000100100001 = .command (.rcword 1) := by decide

theorem test_decode_pad : decodeWord 0b00000000000000000000000000110000 = .command .pad := by decide

theorem test_decode_sponge : decodeWord 0b00000000000000000000000001000000 = .command .sponge := by decide

theorem test_decode_keccak : decodeWord 0b00000000000000000000000001000001 = .command .keccak := by decide

theorem test_decode_digest : decodeWord 0b00000000000000000000000001000010 = .command .digest := by decide

/-- V2: words with a reserved opcode. -/
theorem test_reserved_opcodes : ∀ w ∈ [0x00000000, 0x00000003, 0x00000018, 0x00000043, 0x000000FF],
    decodeWord (BitVec.ofNat 32 w) = .reject .reservedOpcode := by decide

/-- V2: a C0 word with IDX, words with IDX out of range, words with a reserved bit. -/
theorem test_reserved_fields :
    decodeWord 0x00001F17 = .reject .reservedIndex ∧ decodeWord 0x00001F15 = .reject .indexRange ∧
      decodeWord 0x00001821 = .reject .indexRange ∧ decodeWord 0x00001916 = .reject .indexRange ∧
      decodeWord 0x80000017 = .reject .reservedBits ∧ decodeWord 0x00010042 = .reject .reservedBits := by decide

theorem test_table_word : decodeTableWord 32 0x00000216 = some (.keccakp 2) ∧ decodeTableWord 8 0x42 = some .digest ∧
    decodeTableWord 64 0x00000042 = none := by decide

/-! ### One step on a small state -/

/-- A of a next state. -/
def aOf : Host.Outcome State Fault Refusal → Option Cube
  | .next t => some t.a
  | .fault _ => none
  | .refused _ => none

/-- RESULT of a next state. -/
def resultOf : Host.Outcome State Fault Refusal → Option Word
  | .next t => some t.result
  | .fault _ => none
  | .refused _ => none

/-- STATUS of a next state. -/
def statusOf : Host.Outcome State Fault Refusal → Option (BitVec 32)
  | .next t => some t.status
  | .fault _ => none
  | .refused _ => none

/-- The bits of OBUF that a next state holds. -/
def obufOf : Host.Outcome State Fault Refusal → Option Bits
  | .next t => some (t.obuf.map Prod.snd)
  | .fault _ => none
  | .refused _ => none

/-- The state after reset with state array `a`. -/
def withA (a : Cube) : State := { State.reset with a := a }

/-- The state after reset with operands. -/
def withArgs (arg0 arg1 len : Nat) : State :=
  { State.reset with arg0 := BitVec.ofNat 64 arg0, arg1 := BitVec.ofNat 64 arg1, len := BitVec.ofNat 64 len }

/-- The state array with the given lanes first and zeros after them, lane 0 first. -/
def lanes (l : List Lane) : Cube := Vector.ofFn fun n : Fin 25 => l.getD n.val 0

/-- The state T of 95_test_vectors.md section 0. -/
def stateT : Cube := Vector.ofFn fun n : Fin 25 => BitVec.ofNat 64 ((n.val + 1) * 0x0123456789ABCDEF)

/-- V13. -/
theorem test_theta_one_bit : aOf (exec .theta (withA (lanes [1]))) = some (lanes
    [1, 1, 0, 0, 2, 0, 1, 0, 0, 2, 0, 1, 0, 0, 2, 0, 1, 0, 0, 2, 0, 1, 0, 0, 2]) := by decide

/-- V14, the lanes (0, 0), (1, 0), (2, 0), (0, 1) and (4, 4). -/
theorem test_rho_ones : (aOf (exec .rho (withA (Vector.replicate 25 1)))).map (fun a => [a[0], a[1], a[2], a[5], a[24]]) =
    some [0x1, 0x2, 0x4000000000000000, 0x0000001000000000, 0x4000] := by decide

/-- V15. -/
theorem test_pi_numbered : aOf (exec .pi (withA (Vector.ofFn fun n : Fin 25 => BitVec.ofNat 64 n.val))) = some (lanes
    [0, 6, 12, 18, 24, 3, 9, 10, 16, 22, 1, 7, 13, 19, 20, 4, 5, 11, 17, 23, 2, 8, 14, 15, 21]) := by decide

/-- V16. -/
theorem test_chi_plane : aOf (exec .chi (withA (lanes [0xF0F0, 0xFF00, 0xAAAA]))) = some (lanes
    [0xF05A, 0xFF00, 0xAAAA, 0xF0F0, 0x0F00]) := by decide

/-- V22. -/
theorem test_iota_five : (aOf (exec (.iota 5) (withA stateT))).map (fun a => a[0]) = some 0x0123456709ABCDEE := by decide +kernel

/-- V23, the lanes (0, 0) and (4, 4). -/
theorem test_rnd_of_T : (aOf (exec (.rnd 0) (withA stateT))).map (fun a => [a[0], a[24]]) =
    some [0x53DCFFEEEA479E55, 0x29C527E79E4D7683] := by decide

/-- V26: the last round, not the first. -/
theorem test_keccakp_one : aOf (exec (.keccakp 1) State.reset) = some (lanes [0x8000000080008008]) := by decide +kernel

/-- R118: no round at all. -/
theorem test_keccakp_zero : aOf (exec (.keccakp 0) (withA stateT)) = some stateT := by decide

theorem test_keccakf_ends : statusOf (exec .keccakf (withA stateT)) = some 0x00000002 ∧
    resultOf (exec .keccakf (withA stateT)) = some 0 := by decide

/-- V9. -/
theorem test_rcbit : resultOf (exec .rcbit (withArgs 8 0 0)) = some 1 ∧
    resultOf (exec .rcbit (withArgs 9 0 0)) = some 0 ∧
    resultOf (exec .rcbit (withArgs 18446744073709551615 0 0)) = some 1 := by decide

/-- V11. -/
theorem test_rcword : resultOf (exec (.rcword 1) State.reset) = some 0x0000000000008082 ∧
    resultOf (exec (.rcword 2) State.reset) = some 0x800000000000808A ∧
    resultOf (exec (.rcword 23) State.reset) = some 0x8000000080008008 := by decide +kernel

/-- V29. -/
theorem test_pad_two_blocks : resultOf (exec .pad (withArgs 8 0 7)) = some 9 ∧
    obufOf (exec .pad (withArgs 8 0 7)) =
      some [true, false, false, false, false, false, false, false, true] := by decide

/-- V30: m + 2 does not wrap. -/
theorem test_pad_no_wrap : resultOf (exec .pad (withArgs 1088 0 18446744073709551615)) = some 833 := by decide

/-- V5, bit 777 of IBUF. -/
theorem test_encode_bit : (aOf (exec .encode { withArgs 0 0 1600 with
    ibuf := Buffer.cells 0 (List.replicate 777 false ++ true :: List.replicate 822 false) })).map
      (fun a => [a[11], a[12]]) = some [0, 0x200] := by decide +kernel

/-- V7. -/
theorem test_decode_bits : (obufOf (exec .decode (withA (lanes [0x8000000000000001])))).map
    (fun b => [b[0]?, b[1]?, b[63]?, b[64]?, b[1600]?]) = some [some true, some false, some true, some false, none] := by
  decide +kernel

/-- V45. -/
theorem test_encode_lengths : statusOf (exec .encode (withArgs 0 0 25)) = some 0x00000016 ∧
    statusOf (exec .encode (withArgs 0 0 1601)) = some 0x00000016 := by decide

/-- V46. -/
theorem test_sponge_rates : statusOf (exec .sponge (withArgs 0 8 0)) = some 0x00000026 ∧
    statusOf (exec .sponge (withArgs 1600 8 0)) = some 0x00000026 := by decide

/-- V46, V47. -/
theorem test_keccak_capacities : statusOf (exec .keccak (withArgs 0 0 0)) = some 0x00000026 ∧
    statusOf (exec .keccak (withArgs 1601 0 0)) = some 0x00000036 := by decide

/-- V47. -/
theorem test_digest_capacities : statusOf (exec .digest (withArgs 10 0 0)) = some 0x00000036 ∧
    statusOf (exec .digest (withArgs 1592 0 0)) = some 0x00000036 := by decide

/-- V48: the decode stage comes before the rate. -/
theorem test_decode_stage_first : statusOf (step { State.reset with cmd := some 0x00002040 }) = some 0x00000046 := by
  decide

/-- V44: at capacity 2 KECCAK ends with RESULT 1. -/
theorem test_keccak_ends : resultOf (exec .keccak (withArgs 2 0 0)) = some 1 := by
  show resultOf (execKeccak _) = _
  rw [execKeccak_ok rfl rfl rfl (by decide) (by decide)]
  rfl

/-- V47: at capacity 16 DIGEST ends with RESULT 8, one byte. -/
theorem test_digest_ends : resultOf (exec .digest (withArgs 16 0 0)) = some 8 := by
  show resultOf (execDigest _) = _
  rw [execDigest_ok rfl rfl rfl (by decide) (by decide)]
  rfl

/-- V34: SPONGE at rate 1 ends with RESULT 3 and A zero. -/
theorem test_sponge_ends : resultOf (exec .sponge (withArgs 1 3 0)) = some 3 ∧
    aOf (exec .sponge (withArgs 1 3 0)) = some (lanes []) := by
  show resultOf (execSponge _) = _ ∧ aOf (execSponge _) = _
  rw [execSponge_ok rfl rfl (by decide) (by decide)]
  exact ⟨rfl, by decide⟩

/-! ### Witnesses: the hypotheses of each obligation are met, each clause at a bound of its range -/

/-- The state after reset with these accesses still to come. -/
def withHost (l : List Access) : State := { State.reset with host := l }

/-- The state after reset with a word written to CMD. -/
def withWord (w : Nat) : State := { State.reset with cmd := some (BitVec.ofNat 32 w) }

/-- The state after reset of a machine with buffers of the smallest legal capacity. -/
def small (s : State) : State := { s with maxBits := some 1600 }

theorem witness_ResetEventReplacesState : (withHost [.reset]).phase = .idle ∧ (withHost [.reset]).cmd = none ∧
    (withHost [.reset]).host = .reset :: [] := by decide

/-- STATUS as UnsupportedVariant leaves it, so that ERR is 1. -/
theorem witness_StatusReadsAsSpecified : Invariant { State.reset with status := 0x46 } ∧
    State.err { State.reset with status := 0x46 } = true :=
  ⟨⟨rfl, by decide, rfl, List.Pairwise.nil, nofun, rfl, nofun⟩, by decide⟩

theorem witness_OperandRegisterWrites :
    (∀ x ∈ [Access.writeArg0 7, .writeArg1 7, .writeLen 0xFFFFFFFFFFFFFFFF],
      (withHost [x]).phase = .idle ∧ (withHost [x]).cmd = none ∧ (withHost [x]).host = x :: []) := by decide

theorem witness_RegisterReadsHaveNoSideEffect :
    (∀ x ∈ [Access.readStatus, .readArg0, .readArg1, .readLen, .readResult],
      (withHost [x]).phase = .idle ∧ (withHost [x]).cmd = none ∧ (withHost [x]).host = x :: []) := by decide

/-- The last bit of the smallest buffers, and no bit at all. -/
theorem witness_BufferReadsReturnBits : ∀ x ∈ [(Access.readIbuf 1599 1, 1600), (.readObuf 1599 1, 1600), (.readIbuf 0 0, 0)],
    (small (withHost [x.1])).phase = .idle ∧ (small (withHost [x.1])).cmd = none ∧
      (small (withHost [x.1])).host = x.1 :: [] ∧ (small (withHost [x.1])).exceeds x.2 = false ∧ Buffer.wf (small (withHost [x.1])).ibuf ∧
      Buffer.wf (small (withHost [x.1])).obuf := by decide

theorem witness_IbufWriteThenRead : ∀ x ∈ [(1599, [true]), (0, [])],
    (small (withHost [.writeIbuf x.1 x.2])).phase = .idle ∧ (small (withHost [.writeIbuf x.1 x.2])).cmd = none ∧
      (small (withHost [.writeIbuf x.1 x.2])).host = .writeIbuf x.1 x.2 :: [] ∧
      (small (withHost [.writeIbuf x.1 x.2])).exceeds (x.1 + x.2.length) = false := by decide

/-- The last byte of the smallest buffers. -/
theorem witness_ByteViewOfBuffers : ∀ x ∈ [Access.writeIbufByte 199 0xA3, .readIbufByte 199, .readObufByte 199],
    (small (withHost [x])).phase = .idle ∧ (small (withHost [x])).cmd = none ∧
      (small (withHost [x])).host = x :: [] ∧ (small (withHost [x])).exceeds (8 * 199 + 8) = false ∧ Buffer.wf (small (withHost [x])).ibuf ∧
      Buffer.wf (small (withHost [x])).obuf := by decide

/-- The first bit and the first byte beyond the smallest buffers, by each kind of access. -/
theorem witness_AccessBeyondMaxBitsFaults :
    (∀ x ∈ [Access.writeIbuf 1600 [true], .readIbuf 1600 1, .readObuf 1600 1, .writeIbufByte 200 0, .readIbufByte 200,
        .readObufByte 200],
      (small (withHost [x])).phase = .idle ∧ (small (withHost [x])).cmd = none ∧ (small (withHost [x])).host = x :: [] ∧
      (small (withHost [x])).exceeds 1601 = true ∧ (small (withHost [x])).exceeds 1608 = true) := by decide

theorem witness_IdleHoldsEverything : State.reset.phase = .idle ∧ State.reset.cmd = none ∧ State.reset.host = [] := by
  decide

theorem witness_DecodeOfEncodeIsCommand :
    ∀ i ∈ [Instr.iota 23, .rnd 0, .keccakp 24, .rcword 23, .digest], i.wellFormed = true := by decide

/-- Both sides of the equivalence, at IDX 24 and without IDX. -/
theorem witness_MatchAndMaskSelectCommand : (Instr.keccakp 24).wellFormed = true ∧
    0x00001816#32 &&& opcodeMask (.keccakp 24) = opcodeMatch (.keccakp 24) ∧ (0x00001816#32 >>> 8) &&& 0x1F#32 = 24 ∧
    Instr.theta.wellFormed = true ∧ 0x00000010#32 &&& opcodeMask .theta = opcodeMatch .theta := by decide

theorem witness_StepRunsDecodedCommand : (withWord 0x10).phase = .idle ∧ (withWord 0x10).cmd = some 0x10 ∧
    decodeWord 0x10 = .command .theta := by decide

theorem witness_CmdWriteThenCommand : (withHost [.writeCmd 0x42, .readStatus]).phase = .idle ∧
    (withHost [.writeCmd 0x42, .readStatus]).cmd = none ∧
    (withHost [.writeCmd 0x42, .readStatus]).host = .writeCmd 0x42 :: [.readStatus] ∧
    decodeWord 0x42 = .command .digest := by decide

/-- The rejecting clause: a reserved opcode. -/
theorem witness_CmdWriteRejected : (withHost [.writeCmd 0x43, .readStatus]).phase = .idle ∧
    (withHost [.writeCmd 0x43, .readStatus]).cmd = none ∧
    (withHost [.writeCmd 0x43, .readStatus]).host = .writeCmd 0x43 :: [.readStatus] ∧
    ∀ i, decodeWord 0x43 ≠ .command i := by
  have h : decodeWord 0x43 = .reject .reservedOpcode := by decide
  refine ⟨rfl, rfl, rfl, fun i hi => ?_⟩
  rw [h] at hi
  cases hi

theorem witness_ReservedOpcodeRaises : ∀ w ∈ [0x00, 0x03, 0x0F, 0x18, 0x22, 0x43, 0xFF],
    (withWord w).phase = .idle ∧ (withWord w).cmd = some (BitVec.ofNat 32 w) ∧
      ((BitVec.ofNat 32 w).extractLsb' 0 8).toNat ∉ [0x01, 0x02, 0x10, 0x11, 0x12, 0x13, 0x14, 0x15, 0x16, 0x17, 0x20, 0x21, 0x30, 0x40,
        0x41, 0x42] := by decide

/-- Bit 13 and bit 31, with and without a legal OP, and a C0 command with IDX 1 and 31. -/
theorem witness_ReservedBitsRaise :
    (∀ w ∈ [0x00002010, 0x80000017, 0x80000000, 0x00000110, 0x00001F42],
      (withWord w).phase = .idle ∧ (withWord w).cmd = some (BitVec.ofNat 32 w)) ∧
    (∀ w ∈ [0x00002010, 0x80000017, 0x80000000], (BitVec.ofNat 32 w).extractLsb' 13 19 ≠ 0) ∧
      ∀ w ∈ [0x00000110, 0x00001F42],
        ((BitVec.ofNat 32 w).extractLsb' 0 8).toNat ∈
          [0x01, 0x02, 0x10, 0x11, 0x12, 0x13, 0x17, 0x20, 0x30, 0x40, 0x41, 0x42] ∧
        (BitVec.ofNat 32 w).extractLsb' 8 5 ≠ 0 := by decide

/-- IDX 24 and 31 for the round indices, 25 for the round count. -/
theorem witness_IndexOutOfRangeRaises :
    (∀ w ∈ [0x00001814, 0x00001F15, 0x00001821, 0x00001916],
      (withWord w).phase = .idle ∧ (withWord w).cmd = some (BitVec.ofNat 32 w)) ∧
    (∀ w ∈ [0x00001814, 0x00001F15, 0x00001821], ((BitVec.ofNat 32 w).extractLsb' 0 8).toNat ∈ [0x14, 0x15, 0x21] ∧
      23 < ((BitVec.ofNat 32 w).extractLsb' 8 5).toNat) ∧
    (((0x00001916#32).extractLsb' 0 8).toNat = 0x16 ∧
      24 < ((0x00001916#32).extractLsb' 8 5).toNat) := by decide

theorem witness_IllFormedCommandsRaise : (Instr.iota 24).wellFormed = false ∧ (Instr.rnd 31).wellFormed = false ∧
    (Instr.keccakp 25).wellFormed = false ∧ (Instr.rcword 24).wellFormed = false := by decide

theorem witness_EveryWordIsCommandOrRaises : (withWord 0).phase = .idle ∧ (withWord 0).cmd = some 0 := by decide

theorem witness_EncodeLoadsState : Buffer.wf (small (withArgs 0 0 1600)).ibuf ∧
    (small (withArgs 0 0 1600)).len.toNat = 1600 ∧ (small (withArgs 0 0 1600)).exceeds 1600 = false := by decide

theorem witness_EncodeRefusesOtherLengths : ∀ m ∈ [0, 1599, 1601, 1625],
    (withArgs 0 0 m).exceeds (withArgs 0 0 m).len.toNat = false ∧ (withArgs 0 0 m).len.toNat ≠ 1600 := by decide

theorem witness_DecodeWritesFlatView : State.reset.maxBitsLegal = true ∧ (small State.reset).maxBitsLegal = true := by decide

theorem witness_CodecLaws : (List.replicate 1600 true).length = 1600 := List.length_replicate

/-- The hypotheses of IotaBitForm, RndIsFiveSteps and RcwordReturnsConstant at 0 and 23, and of KeccakpRunsLastRounds at 0
and 24. -/
theorem witness_IndexBounds : (23 : BitVec 5).toNat ≤ 23 ∧ (24 : BitVec 5).toNat ≤ 24 ∧ (0 : BitVec 5).toNat ≤ 23 := by
  decide

/-- The clauses of IotaBitForm and RcwordReturnsConstant: the seven positions are 0 to 63, and other positions exist. -/
theorem witness_IotaPositions : (∀ j < 7, 2 ^ j - 1 < 64) ∧ (∀ j < 7, (62 : Fin 64).val ≠ 2 ^ j - 1) ∧
    ¬ ((4 : Fin 5) = 0 ∧ (0 : Fin 5) = 0) := by decide

/-- An ordinary pad, the pad of two bits at x = 1, and the pad of 2^64 bits whose length RESULT cannot show. -/
theorem witness_PadWritesString :
    ((withArgs 8 0 7).arg0 ≠ 0 ∧ ((7 : Nat) : Int) = (-((7 : Nat) : Int) - 2) % ((8 : Nat) : Int) ∧
      (withArgs 8 0 7).exceeds (7 + 2) = false) ∧
    ((withArgs 1 0 0).arg0 ≠ 0 ∧ ((0 : Nat) : Int) = (-((0 : Nat) : Int) - 2) % ((1 : Nat) : Int)) ∧
    (withArgs 18446744073709551615 0 18446744073709551614).arg0 ≠ 0 ∧
      ((18446744073709551614 : Nat) : Int) =
        (-((18446744073709551614 : Nat) : Int) - 2) % ((18446744073709551615 : Nat) : Int) := by decide

/-- Each clause of R161. -/
theorem witness_PadProperties : 0 < 1 ∧ 7 % 8 = 8 - 1 ∧ (2 ≤ 8 ∧ 6 % 8 = 8 - 2) ∧ (2 ≤ 8 ∧ 8 % 8 = 0) ∧
    (2 ≤ 2 ∧ 0 % 2 = 2 - 2) := by decide

/-- Rates 1 and 1599, the empty input, MAXBITS finite. -/
theorem witness_SpongeComputesFunction : (∀ j (h : j < ([] : Bits).length), ([] : Bits)[j] = State.reset.ibufBit j) ∧
    ∀ r ∈ [1, 1599],
    ([] : Bits).length = (small (withArgs r 8 0)).len.toNat ∧ Buffer.wf (small (withArgs r 8 0)).ibuf ∧
      (small (withArgs r 8 0)).exceeds (small (withArgs r 8 0)).len.toNat = false ∧
      (small (withArgs r 8 0)).exceeds (small (withArgs r 8 0)).arg1.toNat = false ∧
      0 < (small (withArgs r 8 0)).arg0.toNat ∧ (small (withArgs r 8 0)).arg0.toNat < 1600 :=
  ⟨nofun, by decide⟩

/-- An input of one bit that the host has written. -/
theorem witness_SpongeInput : [true].length = (withArgs 8 8 1).len.toNat ∧ Buffer.wf [(0, true)] ∧
    ∀ j (h : j < [true].length), [true][j] = State.ibufBit { withArgs 8 8 1 with ibuf := [(0, true)] } j := by
  refine ⟨rfl, by decide, fun j h => ?_⟩
  have : j = 0 := by simpa using h
  subst this
  rfl

theorem witness_ControllerRunLength : 0 < 1 := by decide

theorem witness_BlocksAbsorbed : 0 < 1 := by decide

theorem witness_OutputIsPrefix : (0 < 1 ∧ 1 < 1600 ∧ 0 ≤ 0) ∧ (0 < 1599 ∧ 1599 < 1600 ∧ 8 ≤ 1600) := by decide

/-- At rate 1599 the last bit of the state alone is capacity. -/
theorem witness_AbsorbKeepsCapacityPart :
    (State.work { State.reset with work := { Working.reset with rate := 1599 } }).rate ≤ 64 * (5 * 4 + 4) + 63 := by decide

/-- Capacities 2 and 1598, at the largest message that the smallest buffers take. -/
theorem witness_KeccakComputesFunction : ∀ c ∈ [2, 1598],
    (small (withArgs c 0 1598)).exceeds ((small (withArgs c 0 1598)).len.toNat + 2) = false ∧
      (small (withArgs c 0 1598)).maxBitsLegal = true ∧ (small (withArgs c 0 1598)).arg0.toNat % 2 = 0 ∧
      0 < (small (withArgs c 0 1598)).arg0.toNat ∧ (small (withArgs c 0 1598)).arg0.toNat < 1600 := by decide

theorem witness_KeccakInput : ([] : Bits).length = (withArgs 2 0 0).len.toNat ∧ Buffer.wf (withArgs 2 0 0).ibuf ∧
    ∀ j (h : j < ([] : Bits).length), ([] : Bits)[j] = (withArgs 2 0 0).ibufBit j := ⟨rfl, List.Pairwise.nil, nofun⟩

/-- Capacities 16 and 1584, at the largest message that the smallest buffers take. -/
theorem witness_DigestComputesBytes : ∀ c ∈ [16, 1584],
    (small (withArgs c 0 199)).exceeds (8 * (small (withArgs c 0 199)).len.toNat + 2) = false ∧
      (small (withArgs c 0 199)).maxBitsLegal = true ∧ (small (withArgs c 0 199)).arg0.toNat % 16 = 0 ∧
      0 < (small (withArgs c 0 199)).arg0.toNat ∧ (small (withArgs c 0 199)).arg0.toNat < 1600 := by decide

/-- A message of one byte that the host has written. -/
theorem witness_DigestInput : [0x68#8].length = (withArgs 512 0 1).len.toNat ∧
    ∀ k (h : k < [0x68#8].length), ∀ i < 8, [0x68#8][k].getLsbD i =
      State.ibufBit { withArgs 512 0 1 with ibuf := Buffer.cells 0 [false, false, false, true, false, true, true, false] }
        (8 * k + i) := by
  refine ⟨rfl, fun k h i hi => ?_⟩
  have : k = 0 := by simpa using h
  subst this
  unfold State.ibufBit Buffer.get
  interval_cases i <;> simp <;> decide +kernel

/-- Two states that share the operands and nothing else; the command ends without error. -/
theorem witness_OutputDependsOnOperandsOnly :
    Instr.sponge ∈ [Instr.sponge, .keccak, .digest] ∧ Buffer.wf (withArgs 8 8 0).ibuf ∧
      Buffer.wf (State.ibuf { withArgs 8 8 0 with a := stateT, result := 9, ibuf := [(3, true)] }) ∧
      (∀ j < (if Instr.sponge = .digest then 8 * (withArgs 8 8 0).len.toNat else (withArgs 8 8 0).len.toNat),
        State.ibufBit { withArgs 8 8 0 with a := stateT, result := 9, ibuf := [(3, true)] } j =
          (withArgs 8 8 0).ibufBit j) ∧
      ∃ t, exec .sponge (withArgs 8 8 0) = .next t ∧ t.err = false := by
  refine ⟨by decide, by decide, by decide, fun j hj => absurd hj (Nat.not_lt_zero j), _, execSponge_ok rfl rfl (by decide) (by decide), ?_⟩
  show statusDone.getLsbD 2 = false
  decide

/-- Both ends of the illegal rates; the lengths are within the smallest buffers. -/
theorem witness_InvalidRateRaised :
    (∀ r ∈ [0, 1600, 18446744073709551615], (small (withArgs r 1600 1600)).exceeds 1600 = false ∧
      ((withArgs r 1600 1600).arg0.toNat = 0 ∨ 1600 ≤ (withArgs r 1600 1600).arg0.toNat)) ∧
    (small (withArgs 0 0 1598)).exceeds ((small (withArgs 0 0 1598)).len.toNat + 2) = false ∧
    (small (withArgs 0 0 199)).exceeds (8 * (small (withArgs 0 0 199)).len.toNat + 2) = false ∧
    (withArgs 0 0 5).arg0.toNat = 0 := by decide

/-- The smallest and the largest illegal capacities that the smallest buffers let through. -/
theorem witness_InvalidCapacityRaised : ∀ c ∈ [1, 1599, 1600, 3200],
    (small (withArgs c 0 0)).halfExceeds (small (withArgs c 0 0)).arg0.toNat = false ∧
      (small (withArgs c 0 0)).exceeds ((small (withArgs c 0 0)).len.toNat + 2) = false ∧
      (small (withArgs c 0 0)).exceeds (8 * (small (withArgs c 0 0)).len.toNat + 2) = false ∧
      ((small (withArgs c 0 0)).arg0.toNat % 2 = 1 ∨ 1600 ≤ (small (withArgs c 0 0)).arg0.toNat) ∧
      ((small (withArgs c 0 0)).arg0.toNat % 16 ≠ 0 ∨ 1600 ≤ (small (withArgs c 0 0)).arg0.toNat) := by decide

/-- Each length one above what the smallest buffers hold. -/
theorem witness_LengthAboveMaxBitsRaises : (small State.reset).maxBits = some 1600 ∧
    1600 < (withArgs 0 0 1601).len.toNat ∧ 1600 < (withArgs 8 1601 0).arg1.toNat ∧
    1600 < (withArgs 2 0 1599).len.toNat + 2 ∧ 2 * 1600 < (withArgs 3201 0 0).arg0.toNat ∧
    1600 < 8 * (withArgs 16 0 200).len.toNat + 2 ∧ (withArgs 1600 0 1599).arg0 ≠ 0 ∧
    1600 < padZeros (withArgs 1600 0 1599).arg0.toNat (withArgs 1600 0 1599).len.toNat + 2 := by decide

/-- A command that ends without error and one that ends with an error. -/
theorem witness_CommandsKeepHostSide : (∃ t, exec .theta State.reset = .next t) ∧
    ∃ t, exec .encode State.reset = .next t := ⟨⟨_, rfl⟩, _, rfl⟩

/-- PAD over an OBUF whose bit 1 was 1. -/
theorem witness_OnlyOutputsChangeObuf : ∃ t, exec .pad { withArgs 8 0 7 with obuf := [(1, true)] } = .next t ∧
    t.obufBit 1 ≠ State.obufBit { withArgs 8 0 7 with obuf := [(1, true)] } 1 := by
  refine ⟨_, rfl, ?_⟩
  show false ≠ true
  decide

theorem witness_InstancesAreIndependent :
    System.stepAt [State.reset, State.reset] 0 = .next [State.reset, State.reset] ∧ (1 : Nat) ≠ 0 := ⟨rfl, by decide⟩

/-- A step that runs a command, from a state that meets the invariant. -/
theorem witness_StepKeepsInvariant : Invariant (withWord 0x10) ∧ ∃ t, step (withWord 0x10) = .next t :=
  ⟨⟨rfl, by decide, rfl, List.Pairwise.nil, nofun, rfl, nofun⟩, _, rfl⟩

theorem witness_MaxBitsNeverChanges : ∃ t, step (small (withHost [.reset])) = .next t := ⟨_, rfl⟩

theorem witness_NoStopWhenUnbounded : State.reset.maxBits = none := rfl

end Sys2Proof.Tests
end

section
/-! PROOFS of 00_scope.md. What each kind of step can do, and that each keeps the parameter MAXBITS (R6). -/

namespace Sys2Proof.Machine

/-! ### Commands -/

/-- However a command ends, the host's side is as before. -/
theorem Ending.keepsHostSide {s t : State} {i : Instr} (h : Ending s i t) : KeepsHostSide s t := by
  cases h with
  | raised e => exact keepsHostSide_raise s e
  | plain => exact ⟨rfl, rfl, rfl, rfl, fun _ => rfl, rfl, rfl, rfl⟩
  | output out v => exact keepsHostSide_retire (keepsHostSide_emit s out) v
  | sponge d out => exact keepsHostSide_spongeEnd s d out

/-- The one state a command leads to is one of its endings. -/
theorem ending_of_exec_next {s t : State} {i : Instr} (h : exec i s = .next t) : Ending s i t := by
  obtain ⟨u, hu, hend⟩ := exec_ending i s
  obtain rfl : u = t := Host.Outcome.next.inj (hu.symm.trans h)
  exact hend

/-- A word written to CMD, a command's or not, leaves the host's side as it was (R75 to R79, R195). -/
theorem issueWord_keepsHostSide {w : CmdWord} {s t : State} (h : issueWord w s = .next t) : KeepsHostSide s t := by
  rcases issueWord_cases w s with ⟨i, -, hi⟩ | ⟨r, -, hr⟩
  · exact (ending_of_exec_next (hi.symm.trans h)).keepsHostSide
  · obtain rfl := Host.Outcome.next.inj (hr.symm.trans h)
    exact keepsHostSide_raise s _

/-! ### Transitions of the controller -/

/-- No row of R149 changes MAXBITS. -/
@[simp] theorem coreStep_maxBits (s : State) : s.coreStep.maxBits = s.maxBits := by
  cases h : s.phase with
  | idle => rw [coreStep_idle h]
  | absorb =>
    by_cases hb : s.work.blk < s.work.nblk
    · rw [coreStep_absorb_more h hb, absorbBlock_maxBits]
    · rw [coreStep_absorb_done h hb]
  | round =>
    by_cases hi : s.work.ir.toNat < 24
    · rw [coreStep_round_more h hi, roundStep_maxBits]
    · rw [coreStep_round_done h hi]
  | squeeze =>
    by_cases hz : s.work.zlen + s.work.rate < s.work.outLen
    · rw [coreStep_squeeze_more h hz, squeezeBlock_maxBits]
    · rw [coreStep_squeeze_last h hz, squeezeLast_maxBits]
  | finish => rw [coreStep_finish h, finishSponge_maxBits]

/-! ### Accesses of the host -/

/-- A host access that succeeds keeps MAXBITS, the reset event among them (log entry 22). -/
theorem perform_maxBits {x : Access} {s t : State} (h : x.perform s = .next t) : t.maxBits = s.maxBits := by
  cases x with
  | writeCmd | writeArg0 | writeArg1 | writeLen => cases h; rfl
  | readStatus | readArg0 | readArg1 | readLen | readResult => cases h; exact reply_maxBits s _
  | writeIbuf | writeIbufByte => rw [(ifBits_next h).1]
  | readIbuf | readObuf | readIbufByte | readObufByte => rw [(ifBits_next h).1, reply_maxBits]
  | reset => cases h; exact resetEvent_maxBits s

/-! ### The step -/

/-- In IDLE, with no word pending and no access left, everything stays as it is (R209). -/
theorem step_nothing {s : State} (h : s.phase = .idle) (hc : s.cmd = none) (hh : s.host = []) : step s = .next s := by
  unfold step agentStep idleStep
  rw [if_pos h, hc, hh]

/-- The four kinds of step (R61, R63, R209): the controller moves; in IDLE a word written to CMD is consumed, or the host
makes its next access, or nothing is left to do. -/
theorem step_cases (s : State) :
    (s.phase ≠ .idle ∧ step s = .next s.coreStep) ∨
      (∃ w, s.phase = .idle ∧ s.cmd = some w ∧ step s = issueWord w { s with cmd := none }) ∨
      (∃ x rest, s.phase = .idle ∧ s.cmd = none ∧ s.host = x :: rest ∧ step s = x.perform { s with host := rest }) ∨
      (s.phase = .idle ∧ s.cmd = none ∧ s.host = [] ∧ step s = .next s) := by
  by_cases hp : s.phase = .idle
  · rcases s.cmd.eq_none_or_eq_some with hc | ⟨w, hc⟩
    · cases hh : s.host with
      | cons x rest => exact .inr (.inr (.inl ⟨x, rest, hp, hc, rfl, step_host hp hc hh⟩))
      | nil => exact .inr (.inr (.inr ⟨hp, hc, rfl, step_nothing hp hc hh⟩))
    · exact .inr (.inl ⟨w, hp, hc, step_cmd hp hc⟩)
  · exact .inl ⟨hp, step_running hp⟩

/-- Settles O58: each of the four kinds of step keeps MAXBITS. -/
theorem maxBitsNeverChanges : Obligations.MaxBitsNeverChanges := by
  intro s t h
  rcases step_cases s with ⟨-, hs⟩ | ⟨w, -, -, hs⟩ | ⟨x, rest, -, -, -, hs⟩ | ⟨-, -, -, hs⟩ <;> rw [hs] at h
  · cases h
    exact coreStep_maxBits s
  · exact (issueWord_keepsHostSide h).maxBits
  · exact (perform_maxBits h :)
  · cases h
    rfl

end Sys2Proof.Machine
end

section
/-! PROOFS of 10_state.md. The reset values, the registers, the command issued by a write of CMD, and the invariant that holds
between any two steps: reset meets it and every kind of step keeps it. -/

namespace Sys2Proof.Machine

/-! ### Reset and the register numbers -/

/-- The state array of R42 is the all-zero state of R144. -/
theorem reset_a_eq_zero : State.reset.a = Cube.zero := rfl

/-- Settles O1: the state array after reset is the all-zero state, and the other values of R42 stand in `State.reset`. -/
theorem resetValues : Obligations.ResetValues := by
  refine ⟨fun x y z => ?_, rfl, rfl, rfl, rfl, rfl, rfl⟩
  rw [reset_a_eq_zero, bit_zero]

/-- No register number from 5 on is one the host writes (R31, R224). -/
theorem regWrite_of_five_le {n : Nat} (h : 5 ≤ n) (v : Word) : regWrite n v = none := by
  obtain ⟨k, rfl⟩ := Nat.exists_eq_add_of_le' h
  rfl

/-- No register number above 5 is one the host reads (R31, R224). -/
theorem regRead_of_six_le {n : Nat} (h : 6 ≤ n) : regRead n = none := by
  obtain ⟨k, rfl⟩ := Nat.exists_eq_add_of_le' h
  rfl

/-- Settles O4: the numbers 0 to 5 one by one, and every number above them. -/
theorem registerNumbers : Obligations.RegisterNumbers :=
  ⟨fun v => ⟨rfl, rfl, rfl, rfl, rfl, fun _ h => regWrite_of_five_le h v⟩,
    rfl, rfl, rfl, rfl, rfl, rfl, fun _ h => regRead_of_six_le h⟩

/-- Settles O5: the step is the host's access, and each of the three sets its own register. -/
theorem operandRegisterWrites : Obligations.OperandRegisterWrites := by
  intro s v rest hp hc
  exact ⟨fun hh => step_host hp hc hh, fun hh => step_host hp hc hh, fun hh => step_host hp hc hh⟩

/-! ### A word written to CMD -/

/-- A word that decodes to a command is issued as that command (R78). -/
theorem issueWord_command {w : CmdWord} {i : Instr} (h : decodeWord w = .command i) (s : State) :
    issueWord w s = exec i s := by
  unfold issueWord
  rw [h]

/-- A word that decodes to no command raises UnsupportedVariant (R75 to R79). -/
theorem issueWord_no_command {w : CmdWord} (h : ∀ i, decodeWord w ≠ .command i) (s : State) :
    issueWord w s = .next (s.raise .unsupportedVariant) := by
  rcases issueWord_cases w s with ⟨i, hi, -⟩ | ⟨r, -, hr⟩
  · exact absurd hi (h i)
  · exact hr

/-- Settles O15: the pending word is consumed and issued as the command it decodes to. -/
theorem stepRunsDecodedCommand : Obligations.StepRunsDecodedCommand := by
  intro s w i hp hc hd
  rw [step_cmd hp hc, issueWord_command hd]

/-- Settles O16: the host's write leaves the word pending, and the step that consumes it meets the state before the write with
that access taken off the host's list. -/
theorem cmdWriteThenCommand : Obligations.CmdWriteThenCommand := by
  intro s w rest hp hc hh
  have hconsumed : ({ s with host := rest, cmd := none } : State) = { s with host := rest } :=
    congrArg (fun c => ({ s with host := rest, cmd := c } : State)) hc.symm
  have hissue : step { s with host := rest, cmd := some w } = issueWord w { s with host := rest } :=
    (step_cmd (s := { s with host := rest, cmd := some w }) hp rfl).trans (congrArg (issueWord w) hconsumed)
  refine ⟨_, step_host hp hc hh, rfl, fun i hd => ?_, fun hd => ?_⟩
  · rw [hissue, issueWord_command hd]
  · rw [hissue, issueWord_no_command hd]
    rfl

/-! ### The host's side of a command -/

/-- Settles O53: whichever way the command ends, its ending keeps the host's side. -/
theorem commandsKeepHostSide : Obligations.CommandsKeepHostSide :=
  fun _ _ _ h => (ending_of_exec_next h).keepsHostSide

/-! ### STATUS -/

/-- The six values of STATUS between two steps: zero at reset, DONE alone, and DONE with one of the four errors (R33, R190). -/
theorem mem_statusValues_iff (v : BitVec 32) :
    v ∈ [0x00#32, 0x02#32, 0x16#32, 0x26#32, 0x36#32, 0x46#32] ↔
      v = 0 ∨ v = statusDone ∨ ∃ e, v = statusError e := by
  constructor
  · intro h
    simp only [List.mem_cons, List.not_mem_nil, or_false] at h
    rcases h with h | h | h | h | h | h
    · exact .inl h
    · exact .inr (.inl h)
    · exact .inr (.inr ⟨.invalidLength, h⟩)
    · exact .inr (.inr ⟨.invalidRate, h⟩)
    · exact .inr (.inr ⟨.invalidCapacity, h⟩)
    · exact .inr (.inr ⟨.unsupportedVariant, h⟩)
  · rintro (rfl | rfl | ⟨e, rfl⟩)
    · decide
    · decide
    · cases e <;> decide

/-- Settles O3: the fields of STATUS in each of the values it has between two steps. -/
theorem statusReadsAsSpecified : Obligations.StatusReadsAsSpecified := by
  intro s hs
  unfold State.busy State.done State.err State.errcode
  rcases (mem_statusValues_iff s.status).mp hs.status with h | h | ⟨e, h⟩ <;> rw [h]
  · decide
  · decide
  · cases e <;> decide

/-! ### The bound MAXBITS -/

/-- Whether a length exceeds MAXBITS depends on MAXBITS alone. -/
theorem exceeds_congr {s t : State} (h : t.maxBits = s.maxBits) (n : Nat) : t.exceeds n = s.exceeds n := by
  unfold State.exceeds
  rw [h]

/-- Whether MAXBITS is legal depends on MAXBITS alone. -/
theorem maxBitsLegal_congr {s t : State} (h : t.maxBits = s.maxBits) : t.maxBitsLegal = s.maxBitsLegal := by
  unfold State.maxBitsLegal
  rw [h]

/-- A length below one within MAXBITS is within MAXBITS. -/
theorem exceeds_of_le {s : State} {m n : Nat} (hmn : m ≤ n) (h : s.exceeds n = false) : s.exceeds m = false := by
  unfold State.exceeds at h ⊢
  cases hm : s.maxBits with
  | none => rfl
  | some k =>
    simp only [hm, decide_eq_false_iff_not] at h ⊢
    omega

/-! ### The invariant under updates of the state -/

/-- With both buffers empty and STATUS zero, as reset leaves them, only PHASE and MAXBITS matter. -/
theorem invariant_of_empty {t : State} (hp : t.phase = .idle) (hs : t.status = 0) (hm : t.maxBitsLegal = true)
    (hi : t.ibuf = []) (ho : t.obuf = []) : Invariant t where
  idle := hp
  status := (mem_statusValues_iff _).mpr (.inl hs)
  maxBits := hm
  ibufWf := by rw [hi]; exact .nil
  ibufFits := by rw [hi]; nofun
  obufSegment := by rw [ho]; rfl
  obufFits := by rw [ho]; nofun

/-- What the invariant speaks of is kept, or STATUS is written as a command ends. -/
theorem Invariant.of_kept {s t : State} (h : Invariant s)
    (hs : t.status = s.status ∨ t.status = statusDone ∨ ∃ e, t.status = statusError e)
    (hp : t.phase = s.phase := by rfl) (hm : t.maxBits = s.maxBits := by rfl)
    (hi : t.ibuf = s.ibuf := by rfl) (ho : t.obuf = s.obuf := by rfl) : Invariant t where
  idle := hp.trans h.idle
  status := by
    rcases hs with hs | hs
    · rw [hs]; exact h.status
    · exact (mem_statusValues_iff _).mpr (.inr hs)
  maxBits := (maxBitsLegal_congr hm).trans h.maxBits
  ibufWf := by rw [hi]; exact h.ibufWf
  ibufFits := by
    rw [hi]
    exact fun c hc => (exceeds_congr hm _).trans (h.ibufFits c hc)
  obufSegment := by rw [ho]; exact h.obufSegment
  obufFits := by
    rw [ho]
    exact fun c hc => (exceeds_congr hm _).trans (h.obufFits c hc)

/-- IBUF may be written within MAXBITS (R59). -/
theorem Invariant.write_ibuf {s : State} (h : Invariant s) {i : Nat} {bits : Bits}
    (hl : s.exceeds (i + bits.length) = false) : Invariant { s with ibuf := Buffer.write s.ibuf i bits } :=
  { h with
    ibufWf := write_wf h.ibufWf i bits
    ibufFits := fun c hc => by
      rcases mem_write hc with hc | ⟨-, hc⟩
      · exact h.ibufFits c hc
      · exact exceeds_of_le (Nat.succ_le_of_lt hc) hl }

/-- OBUF may become any string within MAXBITS (R58). -/
theorem Invariant.set_obuf {s : State} (h : Invariant s) {out : Bits} (hl : s.exceeds out.length = false) :
    Invariant { s with obuf := Buffer.cells 0 out } :=
  { h with
    obufSegment := by rw [map_snd_cells]
    obufFits := fun c hc => by
      have hlt := (mem_cells_bounds hc).2
      rw [Nat.zero_add] at hlt
      exact exceeds_of_le (Nat.succ_le_of_lt hlt) hl }

/-! ### The invariant along a run -/

/-- Settles O56: reset leaves both buffers empty and STATUS zero. -/
theorem resetMeetsInvariant : Obligations.ResetMeetsInvariant := invariant_of_empty rfl rfl rfl rfl rfl

/-- However a command ends, it ends in a state that meets the invariant: an output fits MAXBITS by the command's own check. -/
theorem Invariant.of_ending {s t : State} {i : Instr} (h : Invariant s) (ht : Ending s i t) : Invariant t := by
  cases ht with
  | raised e => exact h.of_kept (.inr (.inr ⟨e, rfl⟩))
  | plain => exact h.of_kept (.inr (.inl rfl))
  | output out v hi hl => exact (h.set_obuf hl).of_kept (.inr (.inl rfl))
  | sponge d out hi hd hl =>
    subst hd
    exact (h.set_obuf hl).of_kept (.inr (.inl rfl)) (hp := h.idle.symm)

/-- A word written to CMD, a command's or not, ends in a state that meets the invariant. -/
theorem Invariant.of_issueWord {w : CmdWord} {s t : State} (h : Invariant s) (ht : issueWord w s = .next t) :
    Invariant t := by
  rcases issueWord_cases w s with ⟨i, -, hi⟩ | ⟨r, -, hr⟩
  · exact h.of_ending (ending_of_exec_next (hi.symm.trans ht))
  · obtain rfl := Host.Outcome.next.inj (hr.symm.trans ht)
    exact h.of_kept (.inr (.inr ⟨_, rfl⟩))

/-- An access of the host that does not fault keeps the invariant: a write of IBUF fits MAXBITS, or it would fault. -/
theorem Invariant.of_perform {x : Access} {s t : State} (h : Invariant s) (ht : x.perform s = .next t) : Invariant t := by
  cases x with
  | writeCmd | writeArg0 | writeArg1 | writeLen => cases ht; exact h.of_kept (.inl rfl)
  | readStatus | readArg0 | readArg1 | readLen | readResult => cases ht; exact h.of_kept (.inl rfl)
  | writeIbuf | writeIbufByte =>
    obtain ⟨rfl, hl⟩ := ifBits_next ht
    exact h.write_ibuf hl
  | readIbuf | readObuf | readIbufByte | readObufByte =>
    obtain ⟨rfl, -⟩ := ifBits_next ht
    exact h.of_kept (.inl rfl)
  | reset =>
    cases ht
    exact invariant_of_empty rfl rfl ((maxBitsLegal_congr (resetEvent_maxBits s)).trans h.maxBits) rfl rfl

/-- Settles O57: by the kind of step. The controller does not move, since PHASE is IDLE; taking a word out of CMD or an access
off the host's list touches nothing that the invariant speaks of. -/
theorem stepKeepsInvariant : Obligations.StepKeepsInvariant := by
  intro s t h ht
  rcases step_cases s with ⟨hp, -⟩ | ⟨w, -, -, hs⟩ | ⟨x, rest, -, -, -, hs⟩ | ⟨-, -, -, hs⟩
  · exact absurd h.idle hp
  · have hconsumed : Invariant { s with cmd := none } := h.of_kept (.inl rfl)
    exact hconsumed.of_issueWord (hs.symm.trans ht)
  · have htaken : Invariant { s with host := rest } := h.of_kept (.inl rfl)
    exact htaken.of_perform (hs.symm.trans ht)
  · obtain rfl := Host.Outcome.next.inj (hs.symm.trans ht)
    exact h

end Sys2Proof.Machine
end

section
/-! PROOFS of 20_memory.md. What the host's reads and writes of the buffers return and leave alone, and what of a buffer a
command depends on or changes. -/

namespace Sys2Proof.Machine

/-! ### The buffers bit by bit -/

/-- MemRead of IBUF in canonical form is its bits in index order (R13, R51). -/
theorem ibufRun_eq_map {s : State} (h : Buffer.wf s.ibuf) (i n : Nat) :
    s.ibufRun i n = (List.range n).map fun j => s.ibufBit (i + j) := readRun_eq_map _ h i n

/-- MemRead of OBUF in canonical form is its bits in index order (R13, R51). -/
theorem obufRun_eq_map {s : State} (h : Buffer.wf s.obuf) (i n : Nat) :
    s.obufRun i n = (List.range n).map fun j => s.obufBit (i + j) := readRun_eq_map _ h i n

/-- The byte read from IBUF in canonical form has its eight bits in index order (R52). -/
theorem getLsbD_bitsByte_ibufRun {s : State} (h : Buffer.wf s.ibuf) (k : Nat) {i : Nat} (hi : i < 8) :
    (bitsByte (s.ibufRun k 8)).getLsbD i = s.ibufBit (k + i) := by
  rw [getLsbD_bitsByte _ hi, List.getD_eq_getElem?_getD, getElem?_ibufRun h hi, Option.getD_some]

/-- The byte read from OBUF in canonical form has its eight bits in index order (R52). -/
theorem getLsbD_bitsByte_obufRun {s : State} (h : Buffer.wf s.obuf) (k : Nat) {i : Nat} (hi : i < 8) :
    (bitsByte (s.obufRun k 8)).getLsbD i = s.obufBit (k + i) := by
  rw [getLsbD_bitsByte _ hi, List.getD_eq_getElem?_getD, getElem?_obufRun h hi, Option.getD_some]

/-- The input string of a command is fixed by the input bits, whatever else IBUF holds (R57). -/
theorem inputBits_congr {s s' : State} (hw : Buffer.wf s.ibuf) (hw' : Buffer.wf s'.ibuf) {n : Nat}
    (h : ∀ j < n, s'.ibufBit j = s.ibufBit j) : s'.inputBits n = s.inputBits n := by
  unfold State.inputBits
  rw [ibufRun_eq_map hw', ibufRun_eq_map hw]
  refine List.map_congr_left fun j hj => ?_
  rw [Nat.zero_add]
  exact h j (List.mem_range.mp hj)

/-! ### Accesses of the host -/

/-- The host's access to buffer bits within MAXBITS succeeds (R50, R59). -/
theorem step_within {s t : State} {x : Access} {n : Nat} {rest : List Access} (hp : s.phase = .idle) (hc : s.cmd = none)
    (he : s.exceeds n = false) (hx : x.perform { s with host := rest } = State.ifBits { s with host := rest } n t)
    (hh : s.host = x :: rest) : step s = .next t :=
  (step_host hp hc hh).trans (hx.trans (ifBits_ok he))

/-- Settles O7: the step answers the run read, and a run of a buffer in canonical form is its bits in index order. -/
theorem bufferReadsReturnBits : Obligations.BufferReadsReturnBits := by
  intro s i n rest hp hc he
  refine ⟨fun hw hh => ?_, fun hw hh => ?_⟩
  · rw [← ibufRun_eq_map hw]
    exact step_within hp hc he rfl hh
  · rw [← obufRun_eq_map hw]
    exact step_within hp hc he rfl hh

/-- The host's write of IBUF within MAXBITS, whichever access makes it, changes the written bits and its own list only. -/
theorem step_ibufWrite {s : State} {x : Access} {n i : Nat} {bits : Bits} {rest : List Access} (hp : s.phase = .idle)
    (hc : s.cmd = none) (he : s.exceeds n = false)
    (hx : x.perform { s with host := rest } =
      State.ifBits { s with host := rest } n { s with host := rest, ibuf := Buffer.write s.ibuf i bits })
    (hh : s.host = x :: rest) :
    ∃ t, step s = .next t ∧ t = { s with host := rest, ibuf := t.ibuf } ∧
      (∀ j (h : j < bits.length), t.ibufBit (i + j) = bits[j]) ∧
      (∀ j, j < i ∨ i + bits.length ≤ j → t.ibufBit j = s.ibufBit j) :=
  ⟨{ s with host := rest, ibuf := Buffer.write s.ibuf i bits }, step_within hp hc he hx hh, rfl, ibufBit_write rfl rfl⟩

/-- Settles O8: the access writes the string to IBUF. -/
theorem ibufWriteThenRead : Obligations.IbufWriteThenRead :=
  fun _ _ _ _ hp hc he hh => step_ibufWrite hp hc he rfl hh

/-- Settles O9: a byte write is the write of its eight bits, a byte read the byte of the eight bits read. -/
theorem byteViewOfBuffers : Obligations.ByteViewOfBuffers := by
  intro s k v rest hp hc he
  refine ⟨fun hh => ?_, fun hw hh => ?_, fun hw hh => ?_⟩
  · obtain ⟨t, hstep, hframe, hin, hout⟩ := step_ibufWrite (i := 8 * k) (bits := byteBits v) hp hc he rfl hh
    rw [length_byteBits] at hout
    refine ⟨t, hstep, hframe, fun i hi => ?_, hout⟩
    rw [hin i (by rwa [length_byteBits])]
    exact (List.getElem_eq_iff _).mpr (getElem?_byteBits v hi)
  · exact ⟨_, step_within hp hc he rfl hh, fun i hi => getLsbD_bitsByte_ibufRun hw (8 * k) hi⟩
  · exact ⟨_, step_within hp hc he rfl hh, fun i hi => getLsbD_bitsByte_obufRun hw (8 * k) hi⟩

/-- Settles O6: the step is the host's access, and a register read is nothing but its answer. -/
theorem registerReadsHaveNoSideEffect : Obligations.RegisterReadsHaveNoSideEffect := by
  intro s rest hp hc
  exact ⟨fun hh => step_host hp hc hh, fun hh => step_host hp hc hh, fun hh => step_host hp hc hh,
    fun hh => step_host hp hc hh, fun hh => step_host hp hc hh⟩

/-! ### What a command's output depends on -/

/-- Two states that agree in what a command of the sponge family reads besides its input (R57, R66). -/
structure SameOperands (s s' : State) : Prop where
  arg0 : s'.arg0 = s.arg0
  arg1 : s'.arg1 = s.arg1
  len : s'.len = s.len
  maxBits : s'.maxBits = s.maxBits

/-- Two outcomes, from `s` and from `s'`, that agree in all that the spec defines of them: the same error raised, or the same
output string of a length that fits RESULT. -/
inductive SameEnding (s s' : State) : Host.Outcome State Fault Refusal → Host.Outcome State Fault Refusal → Prop where
  | raised (e : ErrorKind) : SameEnding s s' (.next (s.raise e)) (.next (s'.raise e))
  | sponge (d : Nat) (out : Bits) (hl : out.length = d) (hd : d < 2 ^ 64) :
      SameEnding s s' (.next (s.spongeEnd d out)) (.next (s'.spongeEnd d out))

/-- Whether half a capacity exceeds MAXBITS depends on MAXBITS alone. -/
theorem halfExceeds_congr {s t : State} (h : t.maxBits = s.maxBits) (c : Nat) : t.halfExceeds c = s.halfExceeds c := by
  unfold State.halfExceeds
  rw [h]

/-- Runs of the controller at the same rate, output length and input end alike, wherever they start (R144, R149). -/
theorem sameEnding_runSponge (s s' : State) {r d : Nat} (n : Bits) (hr : 0 < r) (hr' : r ≤ 1600) (hd : d < 2 ^ 64) :
    SameEnding s s' (.next (s.runSponge r d n)) (.next (s'.runSponge r d n)) := by
  rw [runSponge_eq s d n hr hr', runSponge_eq s' d n hr hr']
  exact .sponge d _ (length_keccakSponge hr n d) hd

/-- The same check made in both states raises the same error in both, or lets both go on. -/
theorem SameEnding.check {s s' : State} {c : Prop} [Decidable c] {o o' : Host.Outcome State Fault Refusal} (e : ErrorKind)
    (h : ¬ c → SameEnding s s' o o') :
    SameEnding s s' (if c then .next (s.raise e) else o) (if c then .next (s'.raise e) else o') := by
  by_cases hc : c
  · rw [if_pos hc, if_pos hc]
    exact .raised e
  · rw [if_neg hc, if_neg hc]
    exact h hc

theorem sameEnding_execSponge {s s' : State} (h : SameOperands s s')
    (hn : s'.inputBits s.len.toNat = s.inputBits s.len.toNat) : SameEnding s s' (execSponge s) (execSponge s') := by
  unfold execSponge State.lenOperand State.arg0Operand State.arg1Operand
  rw [h.len, h.arg0, h.arg1, exceeds_congr h.maxBits, exceeds_congr h.maxBits, hn]
  exact .check _ fun _ => .check _ fun hrate => sameEnding_runSponge s s' _ (by omega) (by omega) s.arg1.isLt

/-- KECCAK and DIGEST past their checks, at the same capacity and message (R170). -/
theorem sameEnding_runKeccak (s s' : State) {c : Nat} (n : Bits) (hc : c < 1600) :
    SameEnding s s' (.next (s.runKeccak c n)) (.next (s'.runKeccak c n)) :=
  sameEnding_runSponge s s' _ (by omega) (by omega) (by omega)

theorem sameEnding_execKeccak {s s' : State} (h : SameOperands s s')
    (hn : s'.inputBits s.len.toNat = s.inputBits s.len.toNat) : SameEnding s s' (execKeccak s) (execKeccak s') := by
  unfold execKeccak State.lenOperand State.arg0Operand
  rw [h.len, h.arg0, exceeds_congr h.maxBits, halfExceeds_congr h.maxBits, hn]
  exact .check _ fun _ => .check _ fun hcap => .check _ fun _ => sameEnding_runKeccak s s' _ (by omega)

theorem sameEnding_execDigest {s s' : State} (h : SameOperands s s')
    (hn : s'.inputBits (8 * s.len.toNat) = s.inputBits (8 * s.len.toNat)) :
    SameEnding s s' (execDigest s) (execDigest s') := by
  unfold execDigest State.lenBytesOperand State.arg0Operand
  rw [h.len, h.arg0, exceeds_congr h.maxBits, halfExceeds_congr h.maxBits, hn]
  exact .check _ fun _ => .check _ fun hcap => .check _ fun _ => sameEnding_runKeccak s s' _ (by omega)

/-- The three commands of the sponge family, at the same operands and input bits. -/
theorem sameEnding_exec {s s' : State} (h : SameOperands s s') {i : Instr} (hi : i ∈ [Instr.sponge, .keccak, .digest])
    (hw : Buffer.wf s.ibuf) (hw' : Buffer.wf s'.ibuf)
    (hb : ∀ j < (if i = .digest then 8 * s.len.toNat else s.len.toNat), s'.ibufBit j = s.ibufBit j) :
    SameEnding s s' (exec i s) (exec i s') := by
  have hn := inputBits_congr hw hw' hb
  simp only [List.mem_cons, List.not_mem_nil, or_false] at hi
  rcases hi with rfl | rfl | rfl
  · exact sameEnding_execSponge h hn
  · exact sameEnding_execKeccak h hn
  · exact sameEnding_execDigest h hn

/-- An output length that fits 64 bits is what RESULT reads (R37). -/
theorem countWord_of_lt (s : State) {n : Nat} (h : n < 2 ^ 64) : s.countWord n = BitVec.ofNat 64 n := if_pos h

/-- A raised error shows in STATUS.ERR (R33, R195). -/
theorem raise_err (s : State) (e : ErrorKind) : (s.raise e).err = true := by
  unfold State.err
  rw [raise_status]
  cases e <;> decide

/-- Settles O47: the two outcomes agree. Where the same error is raised STATUS says so; where the same string is put out, A is
zero, RESULT the string's length, and the bits below it the string's. -/
theorem outputDependsOnOperandsOnly : Obligations.OutputDependsOnOperandsOnly := by
  intro i s s' t hi hw hw' h0 h1 hl hm hb ht
  have hend := sameEnding_exec ⟨h0, h1, hl, hm⟩ hi hw hw' hb
  generalize exec i s = o at hend ht
  generalize exec i s' = o' at hend
  cases hend with
  | raised e =>
    cases ht
    refine ⟨_, rfl, rfl, fun herr => ?_⟩
    exact absurd ((raise_err s e).symm.trans herr) (by decide)
  | sponge d out hlen hd =>
    cases ht
    have hres : ∀ u : State, (u.spongeEnd d out).result = BitVec.ofNat 64 d := fun u => countWord_of_lt _ hd
    refine ⟨_, rfl, rfl, fun _ => ⟨(hres s').trans (hres s).symm, rfl, fun j hj => ?_⟩⟩
    rw [hres s, BitVec.toNat_ofNat, Nat.mod_eq_of_lt hd, ← hlen] at hj
    exact (obufHolds_spongeEnd s' d out j hj).trans (obufHolds_spongeEnd s d out j hj).symm

/-! ### Lengths against MAXBITS -/

/-- A length above a finite MAXBITS exceeds it. -/
theorem exceeds_of_lt {s : State} {m n : Nat} (hm : s.maxBits = some m) (h : m < n) : s.exceeds n = true := by
  unfold State.exceeds
  rw [hm]
  exact decide_eq_true h

/-- A capacity above twice a finite MAXBITS has a half that exceeds it (log entry 13). -/
theorem halfExceeds_of_lt {s : State} {m c : Nat} (hm : s.maxBits = some m) (h : 2 * m < c) : s.halfExceeds c = true := by
  unfold State.halfExceeds
  rw [hm]
  exact decide_eq_true h

/-- Settles O51: the first check of ENCODE and of the sponge family is that of the lengths, and PAD's follows ARG0 = 0 only. -/
theorem lengthAboveMaxBitsRaises : Obligations.LengthAboveMaxBitsRaises := by
  intro s m hm
  refine ⟨fun h => ?_, fun h => ?_, fun h => ?_, fun h => ?_, fun h0 h => ?_⟩
  · exact if_pos (exceeds_of_lt hm h)
  · exact if_pos ((Bool.or_eq_true _ _).mpr (h.imp (exceeds_of_lt hm) (exceeds_of_lt hm)))
  · exact if_pos ((Bool.or_eq_true _ _).mpr (h.imp (exceeds_of_lt hm) (halfExceeds_of_lt hm)))
  · exact if_pos ((Bool.or_eq_true _ _).mpr (h.imp (exceeds_of_lt hm) (halfExceeds_of_lt hm)))
  · have hx : s.arg0Operand ≠ 0 := fun e => h0 (BitVec.eq_of_toNat_eq e)
    rw [length_pad] at h
    exact (if_neg hx).trans (if_pos (exceeds_of_lt hm h))

/-! ### What a command changes in OBUF -/

/-- Settles O54: of the four ways a command ends, an error and an ending without output leave OBUF as it was, and the other two
are the five commands' that put a string out, ending without error. -/
theorem onlyOutputsChangeObuf : Obligations.OnlyOutputsChangeObuf := by
  intro i s t j h hj
  cases ending_of_exec_next h with
  | raised e => exact absurd (keepsObuf_raise s e j) hj
  | plain => exact absurd (obufBit_congr rfl rfl j) hj
  | output out v hi => exact ⟨List.mem_append_left [Instr.sponge, .keccak, .digest] hi, rfl⟩
  | sponge d out hi => exact ⟨List.mem_append_right [Instr.decode, .pad] hi, rfl⟩

end Sys2Proof.Machine
end

section
/-! PROOFS of 30_encoding.md, and that an unbounded machine never stops. The claims about words rest on one equivalence: a word
decodes to a command exactly when the command has legal fields and the word is its own (R74 to R78). -/

namespace Sys2Proof.Machine

/-! ### The word of a command, field by field -/

/-- OP of a command, as its row of the opcode map gives it (R74). -/
def opcode (i : Instr) : BitVec 8 := opField (opcodeMatch i)

/-- A command's word is its opcode and its IDX, zero for format C0 (R70, R71). -/
theorem encodeWord_eq_layWord (i : Instr) : encodeWord i = layWord (opcode i) (i.index.getD 0) := by
  cases i <;> rfl

@[simp] theorem opField_encodeWord (i : Instr) : opField (encodeWord i) = opcode i := by
  rw [encodeWord_eq_layWord, opField_layWord]

@[simp] theorem idxField_encodeWord (i : Instr) : idxField (encodeWord i) = i.index.getD 0 := by
  rw [encodeWord_eq_layWord, idxField_layWord]

@[simp] theorem reservedField_encodeWord (i : Instr) : reservedField (encodeWord i) = 0 := by
  rw [encodeWord_eq_layWord, reservedField_layWord]

/-- Being laid out from given fields is having these fields and the reserved bits zero. -/
theorem eq_layWord_iff {w : CmdWord} {op : BitVec 8} {idx : BitVec 5} :
    w = layWord op idx ↔ reservedField w = 0 ∧ opField w = op ∧ idxField w = idx := by
  constructor
  · rintro rfl
    exact ⟨reservedField_layWord op idx, opField_layWord op idx, idxField_layWord op idx⟩
  · rintro ⟨hr, rfl, rfl⟩
    exact (layWord_fields hr).symm

/-! ### Decoding and encoding are inverse -/

/-- Decoding the word of a command with legal fields gives the command back: its opcode selects its own row, and the row's
check of IDX succeeds. -/
theorem decodeWord_encodeWord {i : Instr} (h : i.wellFormed = true) : decodeWord (encodeWord i) = .command i := by
  cases i with
  | iota | rnd | keccakp | rcword =>
    simp only [encodeWord, decodeWord_layWord, decodeOp, opField_layWord]
    exact decodeCI_layWord _ _ _ h
  | encode | decode | theta | rho | pi | chi | keccakf | rcbit | pad | sponge | keccak | digest =>
    simp only [encodeWord, decodeWord_layWord, decodeOp, opField_layWord]
    exact decodeC0_layWord _ _

/-- A word in a C0 row of the opcode map that decodes to a command is the word of that command. -/
theorem decodeC0_encodes {w : CmdWord} {i j : Instr} (hr : reservedField w = 0) (hwf : i.wellFormed = true)
    (hidx : i.index = none) (h : decodeC0 w i = .command j) (hop : (opField w).toNat = (opcode i).toNat) :
    j.wellFormed = true ∧ w = encodeWord j := by
  obtain ⟨rfl, h0⟩ := decodeC0_command h
  rw [encodeWord_eq_layWord, hidx]
  exact ⟨hwf, eq_layWord_iff.mpr ⟨hr, BitVec.eq_of_toNat_eq hop, h0⟩⟩

/-- A word in a CI row of the opcode map that decodes to a command is the word of that command. -/
theorem decodeCI_encodes {w : CmdWord} {f : BitVec 5 → Instr} {j : Instr} (hr : reservedField w = 0)
    (hidx : ∀ idx, (f idx).index = some idx) (h : decodeCI w f = .command j)
    (hop : ∀ idx, (opField w).toNat = (opcode (f idx)).toNat) : j.wellFormed = true ∧ w = encodeWord j := by
  obtain ⟨rfl, hwf⟩ := decodeCI_command h
  rw [encodeWord_eq_layWord, hidx]
  exact ⟨hwf, eq_layWord_iff.mpr ⟨hr, BitVec.eq_of_toNat_eq (hop _), rfl⟩⟩

/-- Whatever row of the opcode map a word decodes by, it is the word of the command it decodes to. -/
theorem decodeOp_encodes {w : CmdWord} {j : Instr} (hr : reservedField w = 0) (h : decodeOp w = .command j) :
    j.wellFormed = true ∧ w = encodeWord j := by
  unfold decodeOp at h
  split at h
  case h_7 hop | h_8 hop | h_9 hop | h_12 hop => exact decodeCI_encodes hr (fun _ => rfl) h fun _ => hop
  case h_17 => cases h
  all_goals next hop => exact decodeC0_encodes hr rfl rfl h hop

/-- A word decodes to a command exactly when the command's fields are legal and the word is its own (R78). -/
theorem decodeWord_eq_command_iff {w : CmdWord} {i : Instr} :
    decodeWord w = .command i ↔ i.wellFormed = true ∧ w = encodeWord i := by
  constructor
  · intro h
    unfold decodeWord at h
    split at h
    · next hr => exact decodeOp_encodes hr h
    · cases h
  · rintro ⟨hwf, rfl⟩
    exact decodeWord_encodeWord hwf

/-- Settles O12: decoding undoes encoding, row by row. -/
theorem decodeOfEncodeIsCommand : Obligations.DecodeOfEncodeIsCommand := fun _ h => decodeWord_encodeWord h

/-- Settles O14: each word is evaluated by the decoder. -/
theorem encodingExamples : Obligations.EncodingExamples := by
  unfold Obligations.EncodingExamples
  decide

/-! ### Match and mask -/

theorem opField_and (v w : CmdWord) : opField (v &&& w) = opField v &&& opField w := BitVec.extractLsb'_and

theorem idxField_and (v w : CmdWord) : idxField (v &&& w) = idxField v &&& idxField w := BitVec.extractLsb'_and

theorem reservedField_and (v w : CmdWord) : reservedField (v &&& w) = reservedField v &&& reservedField w :=
  BitVec.extractLsb'_and

/-- Every row's match value has IDX and the reserved bits zero (R74). -/
theorem opcodeMatch_eq_layWord (i : Instr) : opcodeMatch i = layWord (opcode i) 0 := by
  cases i <;> simp only [opcode, opcodeMatch] <;> rfl

/-- The mask of every C0 row keeps all bits (R74). -/
theorem opcodeMask_of_index_none {i : Instr} (h : i.index = none) : opcodeMask i = 0xFFFFFFFF#32 := by
  cases i with
  | iota | rnd | keccakp | rcword => cases h
  | _ => rfl

/-- The mask of every CI row leaves IDX out (R74). -/
theorem opcodeMask_of_index_some {i : Instr} {idx : BitVec 5} (h : i.index = some idx) : opcodeMask i = 0xFFFFE0FF#32 := by
  cases i with
  | iota | rnd | keccakp | rcword => rfl
  | _ => cases h

/-- A word matches under the mask of format CI exactly when its reserved bits are zero and its OP is the row's. -/
theorem and_maskCI_eq_iff {w : CmdWord} {op : BitVec 8} :
    w &&& 0xFFFFE0FF#32 = layWord op 0 ↔ reservedField w = 0 ∧ opField w = op := by
  have hres : reservedField 0xFFFFE0FF#32 = BitVec.allOnes 19 := by decide
  have hop : opField 0xFFFFE0FF#32 = BitVec.allOnes 8 := by decide
  have hidx : idxField 0xFFFFE0FF#32 = 0#5 := by decide
  rw [eq_layWord_iff, reservedField_and, opField_and, idxField_and, hres, hop, hidx,
    BitVec.and_allOnes, BitVec.and_allOnes, BitVec.and_zero]
  exact and_congr_right fun _ => and_iff_left rfl

/-- `(word >> 8) AND 0x1F` is the IDX field, zero-extended (R71, R74). -/
theorem shift_and_eq_idxField (w : CmdWord) : (w >>> 8) &&& 0x1F#32 = (idxField w).setWidth 32 := by
  apply BitVec.eq_of_toNat_eq
  have hmask : (0x1F#32).toNat = 2 ^ 5 - 1 := rfl
  rw [BitVec.toNat_and, hmask, Nat.and_two_pow_sub_one_eq_mod, BitVec.toNat_setWidth_of_le (by decide)]
  rfl

/-- The operand test of R74 for one IDX. -/
theorem shift_and_eq_setWidth_iff {w : CmdWord} {idx : BitVec 5} :
    (w >>> 8) &&& 0x1F#32 = idx.setWidth 32 ↔ idxField w = idx := by
  rw [shift_and_eq_idxField]
  refine ⟨fun h => BitVec.eq_of_toNat_eq ?_, congrArg _⟩
  have h' := congrArg BitVec.toNat h
  rwa [BitVec.toNat_setWidth_of_le (by decide), BitVec.toNat_setWidth_of_le (by decide)] at h'

/-- Settles O13: the word is the command's own, which under a C0 mask is equality with the match value, and under a CI mask
equality of OP and the reserved bits, the operand test adding IDX. -/
theorem matchAndMaskSelectCommand : Obligations.MatchAndMaskSelectCommand := by
  intro w i hwf
  rw [decodeWord_eq_command_iff, encodeWord_eq_layWord, opcodeMatch_eq_layWord]
  cases hi : i.index with
  | none =>
    have hall : w &&& 0xFFFFFFFF#32 = w := BitVec.and_allOnes
    rw [opcodeMask_of_index_none hi, hall]
    simp [hwf]
  | some idx =>
    rw [opcodeMask_of_index_some hi, and_maskCI_eq_iff, eq_layWord_iff]
    simp [hwf, shift_and_eq_setWidth_iff, and_assoc]

/-! ### Words that are no command -/

/-- A pending word that is not the word of a command with legal fields raises UnsupportedVariant and changes nothing else
(R75 to R78). -/
theorem step_unsupported {s : State} {w : CmdWord} (hp : s.phase = .idle) (hc : s.cmd = some w)
    (h : ∀ i : Instr, i.wellFormed = true → encodeWord i ≠ w) :
    step s = .next { s with cmd := none, status := 0x00000046#32 } := by
  have hdecode : ∀ i, decodeWord w ≠ .command i := fun i hd => by
    obtain ⟨hwf, he⟩ := decodeWord_eq_command_iff.mp hd
    exact h i hwf he.symm
  rw [step_cmd hp hc, issueWord_no_command hdecode]
  rfl

/-- The sixteen opcodes (R74). -/
theorem opcode_mem (i : Instr) : (opcode i).toNat ∈ [0x01, 0x02, 0x10, 0x11, 0x12, 0x13, 0x14, 0x15, 0x16, 0x17, 0x20,
    0x21, 0x30, 0x40, 0x41, 0x42] := by
  cases i <;> simp [opcode, opcodeMatch, opField]

/-- The twelve opcodes of format C0 belong to the commands without an index (R72, R74). -/
theorem index_eq_none_of_opcode {i : Instr} (h : (opcode i).toNat ∈
    [0x01, 0x02, 0x10, 0x11, 0x12, 0x13, 0x17, 0x20, 0x30, 0x40, 0x41, 0x42]) : i.index = none := by
  cases i with
  | iota | rnd | keccakp | rcword => simp [opcode, opcodeMatch, opField] at h
  | _ => rfl

/-- A command with legal fields has an IDX of at most 24, and of at most 23 unless it is KECCAKP (R77). -/
theorem index_le_of_wellFormed {i : Instr} (h : i.wellFormed = true) :
    (i.index.getD 0).toNat ≤ if (opcode i).toNat = 0x16 then 24 else 23 := by
  cases i with
  | iota | rnd | rcword | keccakp => exact of_decide_eq_true h
  | _ => exact Nat.zero_le _

/-- Settles O17: the OP of a command's word is one of the sixteen. -/
theorem reservedOpcodeRaises : Obligations.ReservedOpcodeRaises := by
  intro s w hp hc hop
  refine step_unsupported hp hc fun i _ he => ?_
  subst he
  change (opField (encodeWord i)).toNat ∉ _ at hop
  rw [opField_encodeWord] at hop
  exact hop (opcode_mem i)

/-- Settles O18: a command's word has the reserved bits zero, and with the OP of format C0 also IDX. -/
theorem reservedBitsRaise : Obligations.ReservedBitsRaise := by
  intro s w hp hc h
  refine step_unsupported hp hc fun i _ he => ?_
  subst he
  change reservedField (encodeWord i) ≠ 0 ∨ (opField (encodeWord i)).toNat ∈ _ ∧ idxField (encodeWord i) ≠ 0 at h
  rw [reservedField_encodeWord, opField_encodeWord, idxField_encodeWord] at h
  rcases h with h | ⟨hop, hidx⟩
  · exact h rfl
  · exact hidx (by rw [index_eq_none_of_opcode hop]; rfl)

/-- Settles O19: the IDX of a command's word is within the range that R77 gives for its OP. -/
theorem indexOutOfRangeRaises : Obligations.IndexOutOfRangeRaises := by
  intro s w hp hc h
  refine step_unsupported hp hc fun i hwf he => ?_
  subst he
  change ((opField (encodeWord i)).toNat ∈ _ ∧ 23 < (idxField (encodeWord i)).toNat) ∨
    ((opField (encodeWord i)).toNat = 0x16 ∧ 24 < (idxField (encodeWord i)).toNat) at h
  rw [opField_encodeWord, idxField_encodeWord] at h
  have hle := index_le_of_wellFormed hwf
  rcases h with ⟨hop, hidx⟩ | ⟨hop, hidx⟩
  · have hne : (opcode i).toNat ≠ 0x16 := fun e => by simp [e] at hop
    rw [if_neg hne] at hle
    omega
  · rw [if_pos hop] at hle
    omega

/-- Settles O21: a word that decodes to a command is the word of that command and of no other; every other word is the word
of none. -/
theorem everyWordIsCommandOrRaises : Obligations.EveryWordIsCommandOrRaises := by
  intro s w hp hc
  by_cases h : ∃ i, decodeWord w = .command i
  · obtain ⟨i, hd⟩ := h
    obtain ⟨hwf, he⟩ := decodeWord_eq_command_iff.mp hd
    refine .inl ⟨i, ⟨hwf, he.symm, stepRunsDecodedCommand s w i hp hc hd⟩, fun j hj hje => ?_⟩
    have hdj : decodeWord w = .command j := decodeWord_eq_command_iff.mpr ⟨hj, hje.symm⟩
    exact Decoded.command.inj (hdj.symm.trans hd)
  · have hnone : ∀ i : Instr, i.wellFormed = true → encodeWord i ≠ w :=
      fun i hwf he => h ⟨i, decodeWord_eq_command_iff.mpr ⟨hwf, he.symm⟩⟩
    exact .inr ⟨hnone, step_unsupported hp hc hnone⟩

/-! ### No step stops an unbounded machine -/

/-- Every word written to CMD, a command's or not, leads to a next state (R78, R196). -/
theorem issueWord_next (w : CmdWord) (s : State) : ∃ t, issueWord w s = .next t := by
  rcases issueWord_cases w s with ⟨i, -, hi⟩ | ⟨r, -, hr⟩
  · obtain ⟨t, ht, -⟩ := exec_ending i s
    exact ⟨t, hi.trans ht⟩
  · exact ⟨_, hr⟩

/-- No length exceeds an unbounded MAXBITS (R66). -/
theorem exceeds_of_unbounded {s : State} (h : s.maxBits = none) (n : Nat) : s.exceeds n = false := by
  unfold State.exceeds
  rw [h]

/-- Without a bound on the buffers every access of the host succeeds (R50, R59). -/
theorem perform_next_of_unbounded (x : Access) {s : State} (h : s.maxBits = none) : ∃ t, x.perform s = .next t := by
  cases x with
  | writeIbuf | writeIbufByte | readIbuf | readObuf | readIbufByte | readObufByte =>
    exact ⟨_, ifBits_ok (exceeds_of_unbounded h _)⟩
  | _ => exact ⟨_, rfl⟩

/-- Settles O59: of the four kinds of step only an access of the host can stop, and it does so only against a bound. -/
theorem noStopWhenUnbounded : Obligations.NoStopWhenUnbounded := by
  intro s hm
  rcases step_cases s with ⟨-, hs⟩ | ⟨w, -, -, hs⟩ | ⟨x, rest, -, -, -, hs⟩ | ⟨-, -, -, hs⟩ <;> rw [hs]
  · exact ⟨_, rfl⟩
  · exact issueWord_next w _
  · exact perform_next_of_unbounded x hm
  · exact ⟨_, rfl⟩

end Sys2Proof.Machine
end

section
/-! PROOFS of 40_codec.md. What ENCODE and DECODE do where their checks pass and where they do not, and the laws of the two
functions behind them. -/

namespace Sys2Proof.Machine

/-! ### ENCODE -/

/-- ENCODE at LEN = 1600 within MAXBITS passes its checks and replaces A by what IBUF encodes (R93). -/
theorem execEncode_ok {s : State} (hl : s.len.toNat = 1600) (he : s.exceeds 1600 = false) :
    execEncode s = .next (s.mapA fun _ => Cube.ofFlat (s.inputBits 1600)) := by
  unfold execEncode State.lenOperand
  rw [hl, he]
  rfl

/-- Any other LEN within MAXBITS is InvalidLength, whether or not it is a multiple of 25 (R93, R191). -/
theorem execEncode_invalidLength {s : State} (he : s.exceeds s.len.toNat = false) (hl : s.len.toNat ≠ 1600) :
    execEncode s = .next (s.raise .invalidLength) := by
  unfold execEncode State.lenOperand
  rw [he, if_neg Bool.false_ne_true, if_pos hl, ite_self]

/-- The state encoded from IBUF in canonical form, bit by bit (R90). -/
theorem bit_ofFlat_inputBits {s : State} (h : Buffer.wf s.ibuf) (x y : Fin 5) (z : Fin 64) :
    Cube.bit (Cube.ofFlat (s.inputBits 1600)) x y z = s.ibufBit (64 * (5 * y.val + x.val) + z.val) := by
  unfold State.inputBits
  rw [bit_ofFlat, List.getD_eq_getElem?_getD, getElem?_ibufRun h (by omega), Option.getD_some, Nat.zero_add]

/-- Settles O22: the command maps A to the state that IBUF encodes. -/
theorem encodeLoadsState : Obligations.EncodeLoadsState := by
  intro s hw hl he
  exact ⟨_, execEncode_ok hl he, bit_ofFlat_inputBits hw, ⟨rfl, rfl⟩, keepsHostSide_mapA s _, keepsObuf_mapA s _, rfl⟩

/-- Settles O23: past the check against MAXBITS, LEN fails one of the two that raise InvalidLength. -/
theorem encodeRefusesOtherLengths : Obligations.EncodeRefusesOtherLengths :=
  fun _ he hl => execEncode_invalidLength he hl

/-! ### DECODE -/

/-- The 1600 bits of a state fit every legal MAXBITS (R66). -/
theorem exceeds_of_maxBitsLegal {s : State} (h : s.maxBitsLegal = true) : s.exceeds 1600 = false := by
  unfold State.maxBitsLegal at h
  unfold State.exceeds
  cases hm : s.maxBits with
  | none => rfl
  | some m =>
    simp only [hm, decide_eq_true_eq] at h
    exact decide_eq_false (Nat.not_lt.mpr h)

/-- DECODE with a legal MAXBITS puts out the flat view of A (R94). -/
theorem execDecode_ok {s : State} (h : s.maxBitsLegal = true) :
    execDecode s = .next ((s.emit (Cube.flat s.a)).retire 1600) := by
  unfold execDecode
  rw [exceeds_of_maxBitsLegal h, if_neg Bool.false_ne_true]

/-- Where OBUF holds the flat view of a state, it reads as the state's bits (R22, R91). -/
theorem obufBit_of_flat {t : State} {a : Cube} (h : ObufHolds t (Cube.flat a)) (x y : Fin 5) (z : Fin 64) :
    t.obufBit (64 * (5 * y.val + x.val) + z.val) = Cube.bit a x y z := by
  have hi : 64 * (5 * y.val + x.val) + z.val < (Cube.flat a).length := by
    rw [length_flat]
    omega
  rw [h _ hi]
  exact (List.getElem_eq_iff hi).mpr (getElem?_flat_bit a x y z)

/-- Settles O24: the output string is the flat view, and putting it out leaves A alone. -/
theorem decodeWritesFlatView : Obligations.DecodeWritesFlatView := by
  intro s h
  refine ⟨_, execDecode_ok h, obufBit_of_flat (obufHolds_emit s _ 1600), ?_, ⟨rfl, rfl⟩,
    keepsHostSide_retire (keepsHostSide_emit s _) 1600, ?_⟩
  · rw [retire_a, emit_a]
  · rw [retire_phase, emit_phase]

/-! ### The codec's two functions -/

theorem map_range_eq_ofFn {α : Type} (n : Nat) (f : Nat → α) : (List.range n).map f = List.ofFn fun i : Fin n => f i := by
  rw [List.ofFn_eq_map, ← List.map_coe_finRange_eq_range, List.map_map]
  rfl

/-- Bit z of lane n stands at index 64·n + z of the flat view (R22). -/
theorem flatBit_lane (a : Cube) (n : Fin 25) (z : Fin 64) : Cube.flatBit a (64 * n.val + z.val) = a[n].getLsbD z := by
  have hdiv : (64 * n.val + z.val) / 64 = n.val := by omega
  have hmod : (64 * n.val + z.val) % 64 = z.val := by omega
  unfold Cube.flatBit
  rw [hdiv, hmod]
  simp [Vector.getD]

/-- decode(A) is the 25 lanes in order, each in order of z (R91): the flat index is cut into a lane number and a bit number. -/
theorem flat_eq_flatten_lanes (a : Cube) :
    Cube.flat a = (a.toList.map fun v => (List.range 64).map v.getLsbD).flatten := by
  have hlanes : a.toList = List.ofFn fun n : Fin 25 => a[n] := by
    rw [← Vector.toList_ofFn]
    exact congrArg Vector.toList Vector.ofFn_getElem.symm
  calc Cube.flat a
      = List.ofFn fun i : Fin (64 * 25) => Cube.flatBit a i := map_range_eq_ofFn 1600 _
    _ = (List.ofFn fun n : Fin 25 => List.ofFn fun z : Fin 64 => Cube.flatBit a (64 * n.val + z.val)).flatten :=
        List.ofFn_mul' _
    _ = (a.toList.map fun v => (List.range 64).map v.getLsbD).flatten := by
        simp only [flatBit_lane, hlanes, List.map_ofFn, map_range_eq_ofFn]
        rfl

/-- Settles O25: decode joins the lanes, and each function undoes the other. -/
theorem codecLaws : Obligations.CodecLaws := ⟨flat_eq_flatten_lanes, fun _ h => flat_ofFlat h, ofFlat_flat⟩

end Sys2Proof.Machine
end

section
/-! PROOFS of 41_permutation.md. The bit forms of the five step mappings, the walk of ρ, the order of π, and the rounds that
RND, KECCAKP and KECCAKF perform. -/

namespace Sys2Proof.Machine

/-! ### What the commands of the permutation engine have in common -/

/-- How a step mapping run as a command ends, and what it leaves alone (R37, R57, R58). -/
theorem mapA_ends_and_keeps (s : State) (f : Cube → Cube) :
    EndsOk (s.mapA f) 0 ∧ KeepsHostSide s (s.mapA f) ∧ KeepsObuf s (s.mapA f) ∧ (s.mapA f).phase = s.phase :=
  ⟨⟨rfl, rfl⟩, keepsHostSide_mapA s f, keepsObuf_mapA s f, mapA_phase s f⟩

/-! ### θ -/

/-- The lane of column parities holds C[x][z] of R101 at z. -/
theorem getLsbD_thetaC (a : Cube) (x : Fin 5) (z : Fin 64) : (thetaC a x).getLsbD z.val = thetaParity a x z := by
  unfold thetaC thetaParity Cube.bit
  simp only [BitVec.getLsbD_xor]

/-- θ in bit form (R101): rotating a lane by one brings the bit at z - 1 to z. -/
theorem bit_theta (a : Cube) (x y : Fin 5) (z : Fin 64) :
    Cube.bit (theta a) x y z =
      (Cube.bit a x y z ^^ (thetaParity a (x - 1) z ^^ thetaParity a (x + 1) (z - 1))) := by
  have hrot : ((thetaC a (x + 1)).rotateLeft 1).getLsbD z.val = thetaParity a (x + 1) (z - 1) := by
    rw [getLsbD_rotateLeft_sub _ (by decide), getLsbD_thetaC]
    rfl
  unfold Cube.bit
  rw [lane_theta, thetaD, BitVec.getLsbD_xor, BitVec.getLsbD_xor, getLsbD_thetaC, hrot]

/-- Settles O26: THETA maps A by θ, whose lane form is the bit form. -/
theorem thetaBitForm : Obligations.ThetaBitForm := fun s =>
  ⟨_, rfl, bit_theta s.a, mapA_ends_and_keeps s theta⟩

/-! ### ρ -/

/-- ρ in bit form for any number that agrees with the table's offset modulo 64 (R105, R106). -/
theorem bit_rho (a : Cube) {x y : Fin 5} {n : Nat} (h : n % 64 = rhoOffset x y) (z : Fin 64) :
    Cube.bit (rho a) x y z = Cube.bit a x y (z - Fin.ofNat 64 n) := by
  have hn : Fin.ofNat 64 (rhoOffset x y) = Fin.ofNat 64 n := by
    rw [← h]
    exact Fin.ext (Nat.mod_mod n 64)
  unfold Cube.bit
  rw [lane_rho, getLsbD_rotateLeft_sub _ (rhoOffset_lt x y), hn]

/-- The table of R106 holds the triangular numbers of R104 along the walk. -/
theorem rhoOffset_rhoWalk : ∀ k < 24, (k + 1) * (k + 2) / 2 % 64 = rhoOffset (rhoWalk k).1 (rhoWalk k).2 := by
  decide

/-- The walk of R104 reaches every lane but (0, 0). -/
theorem rhoWalk_surjective (x y : Fin 5) : (x = 0 ∧ y = 0) ∨ ∃ k < 24, rhoWalk k = (x, y) := by
  revert x y
  decide

theorem rhoWalk_injective : ∀ j < 24, ∀ k < 24, rhoWalk j = rhoWalk k → j = k := by
  decide

theorem rhoWalk_ne_origin : ∀ k < 24, rhoWalk k ≠ (0, 0) := by
  decide

/-- Settles O27: the offset of each lane is looked up along the walk, and the walk is checked lane by lane. -/
theorem rhoBitForm : Obligations.RhoBitForm :=
  ⟨fun s => ⟨_, rfl,
      fun z => (bit_rho s.a (n := 0) rfl z).trans (congrArg _ (sub_zero z)),
      fun k hk => bit_rho s.a (rhoOffset_rhoWalk k hk),
      mapA_ends_and_keeps s rho⟩,
    rhoWalk_surjective, rhoWalk_injective, rhoWalk_ne_origin, by decide⟩

/-! ### π -/

/-- π in bit form (R108). -/
theorem bit_pi (a : Cube) (x y : Fin 5) (z : Fin 64) : Cube.bit (pi a) x y z = Cube.bit a (x + 3 * y) x z := by
  unfold Cube.bit
  rw [lane_pi]

/-- Settles O28: PI maps A by π. -/
theorem piBitForm : Obligations.PiBitForm := fun s => ⟨_, rfl, bit_pi s.a, mapA_ends_and_keeps s pi⟩

/-- Where the lane that π puts at a position comes from (R108). -/
def piSource (p : Fin 5 × Fin 5) : Fin 5 × Fin 5 := (p.1 + 3 * p.2, p.1)

theorem lane_repeat_pi (n : Nat) (a : Cube) (p : Fin 5 × Fin 5) :
    Cube.lane (Nat.repeat pi n a) p.1 p.2 = Cube.lane a (piSource^[n] p).1 (piSource^[n] p).2 := by
  induction n generalizing p with
  | zero => rfl
  | succ n ih => exact (lane_pi _ _ _).trans (ih (piSource p))

/-- The source map of π has order dividing 24. -/
theorem iterate_piSource_order (p : Fin 5 × Fin 5) : piSource^[24] p = p := by
  revert p
  decide

/-- The position (y, 2x + 3y) takes its lane from (x, y) (R109). -/
theorem piSource_inverse (x y : Fin 5) : piSource (y, 2 * x + 3 * y) = (x, y) := by
  revert x y
  decide

/-- Settles O29: both claims are about the permutation of positions that moves the lanes. -/
theorem piInverseAndOrder : Obligations.PiInverseAndOrder := by
  refine ⟨fun a x y z => ?_, fun a => cube_ext_lane fun x y => ?_⟩
  · have hx : y + 3 * (2 * x + 3 * y) = x := congrArg Prod.fst (piSource_inverse x y)
    rw [bit_pi, hx]
  · rw [lane_repeat_pi 24 a (x, y), iterate_piSource_order]

/-! ### χ -/

/-- χ in bit form (R111). -/
theorem bit_chi (a : Cube) (x y : Fin 5) (z : Fin 64) :
    Cube.bit (chi a) x y z = (Cube.bit a x y z ^^ ((!Cube.bit a (x + 1) y z) && Cube.bit a (x + 2) y z)) := by
  unfold Cube.bit
  rw [lane_chi, BitVec.getLsbD_xor, BitVec.getLsbD_and, BitVec.getLsbD_not, decide_eq_true z.isLt, Bool.true_and]

/-- Settles O30: CHI maps A by χ, whose lane form is the bit form. -/
theorem chiBitForm : Obligations.ChiBitForm := fun s => ⟨_, rfl, bit_chi s.a, mapA_ends_and_keeps s chi⟩

/-! ### rc, bit by bit -/

/-- The byte form of one LFSR iteration (R131) is the bit form (R130): the two agree whether or not the bit shifted out is set. -/
theorem lfsrBitsStep_byteBits (v : BitVec 8) : lfsrBitsStep (byteBits v) = byteBits (lfsrStep v) := by
  unfold lfsrStep
  cases h : v[7] <;> simp [lfsrBitsStep, byteBits, List.range, List.range.loop, h]

theorem lfsrBits_eq_byteBits (n : Nat) : lfsrBits n = byteBits (lfsr n) := by
  induction n with
  | zero => decide
  | succ n ih => rw [lfsrBits, lfsr, ih, lfsrBitsStep_byteBits]

/-- The procedure of R130 gives the bit that the byte register gives (R131). -/
theorem rcBits_eq_rc (t : Nat) : rcBits t = rc t := by
  unfold rcBits rc
  rw [lfsrBits_eq_byteBits, List.getD_eq_getElem?_getD, getElem?_byteBits _ (by decide), Option.getD_some]

/-! ### ι -/

theorem execIota_ok {ir : BitVec 5} (h : ir.toNat ≤ 23) (s : State) :
    execIota ir s = .next (s.mapA fun a => iota a ir.toNat) := if_neg (Nat.not_lt.mpr h)

theorem bit_iota_other_lane (a : Cube) (ir : Nat) {x y : Fin 5} (h : ¬ (x = 0 ∧ y = 0)) (z : Fin 64) :
    Cube.bit (iota a ir) x y z = Cube.bit a x y z := by
  unfold Cube.bit
  rw [lane_iota, if_neg h]

/-- ι on lane (0, 0) (R113): the constant word is added. -/
theorem bit_iota_origin (a : Cube) (ir : Nat) (z : Fin 64) :
    Cube.bit (iota a ir) 0 0 z = (Cube.bit a 0 0 z ^^ (rcw ir).getLsbD z.val) := by
  unfold Cube.bit
  rw [lane_iota, if_pos ⟨rfl, rfl⟩, BitVec.getLsbD_xor]

/-- Settles O31: IOTA adds the constant word, whose bits the laws of the generator give. -/
theorem iotaBitForm : Obligations.IotaBitForm := by
  intro s ir h
  refine ⟨_, execIota_ok h s, fun x y z hxy => bit_iota_other_lane s.a _ hxy z, fun j hj z hz => ?_, fun z hz => ?_,
    mapA_ends_and_keeps s _⟩
  · rw [mapA_a, bit_iota_origin, hz, getLsbD_rcw_pow hj, rcBits_eq_rc]
  · rw [mapA_a, bit_iota_origin, getLsbD_rcw_other hz, Bool.xor_false]

/-! ### The round and the permutations -/

theorem execRnd_ok {ir : BitVec 5} (h : ir.toNat ≤ 23) (s : State) :
    execRnd ir s = .next (s.mapA fun a => rnd a ir.toNat) := if_neg (Nat.not_lt.mpr h)

/-- Settles O32: the five commands map A one after the other, which is the round by definition (R115). -/
theorem rndIsFiveSteps : Obligations.RndIsFiveSteps := fun s _ h =>
  ⟨_, _, _, _, _, _, execRnd_ok h s, rfl, rfl, rfl, rfl, execIota_ok h _, rfl, mapA_ends_and_keeps s _⟩

/-- The rounds of R117, counted from 0. -/
theorem keccakPState_eq_foldl_range (a : Cube) (nr : Nat) :
    keccakPState a nr = (List.range nr).foldl (fun a k => rnd a (24 - nr + k)) a := by
  unfold keccakPState
  rw [List.range'_eq_map_range, List.foldl_map]

/-- The full permutation is the rounds 0 to 23 (R119). -/
theorem keccakFState_eq_foldl_range (a : Cube) : keccakFState a = (List.range 24).foldl rnd a := by
  unfold keccakFState keccakPState
  rw [List.range_eq_range']

/-- Settles O33: the loop of R123 computes keccak_p_state. -/
theorem keccakpRunsLastRounds : Obligations.KeccakpRunsLastRounds := fun s nr h =>
  ⟨_, execKeccakp_ok h s, keccakPState_eq_foldl_range s.a nr.toNat,
    mapA_ends_and_keeps s fun a => keccakPState a nr.toNat⟩

theorem KeepsHostSide.symm {s t : State} (h : KeepsHostSide s t) : KeepsHostSide t s :=
  ⟨h.cmd.symm, h.arg0.symm, h.arg1.symm, h.len.symm, fun i => (h.ibuf i).symm, h.maxBits.symm, h.host.symm,
    h.answer.symm⟩

theorem KeepsHostSide.trans {s t u : State} (h : KeepsHostSide s t) (h' : KeepsHostSide t u) : KeepsHostSide s u :=
  ⟨h'.cmd.trans h.cmd, h'.arg0.trans h.arg0, h'.arg1.trans h.arg1, h'.len.trans h.len,
    fun i => (h'.ibuf i).trans (h.ibuf i), h'.maxBits.trans h.maxBits, h'.host.trans h.host,
    h'.answer.trans h.answer⟩

/-- Settles O34: both commands map A by the full permutation and keep the rest of `s`, so they agree with each other. -/
theorem keccakfRunsAllRounds : Obligations.KeccakfRunsAllRounds := by
  intro s
  obtain ⟨htEnds, htHost, htObuf, htPhase⟩ := mapA_ends_and_keeps s keccakFState
  obtain ⟨huEnds, huHost, huObuf, huPhase⟩ := mapA_ends_and_keeps s fun a => keccakPState a (24 : BitVec 5).toNat
  exact ⟨_, _, execKeccakf_eq s, execKeccakp_ok (by decide) s, keccakFState_eq_foldl_range s.a, htEnds, htHost, htObuf,
    htPhase, rfl, huEnds, htHost.symm.trans huHost, fun i => (huObuf i).trans (htObuf i).symm, huPhase.trans htPhase.symm⟩

end Sys2Proof.Machine
end

section
/-! PROOFS of 42_round_constant.md. What RCBIT and RCWORD return, and the period of the generator's LFSR. -/

namespace Sys2Proof.Machine

/-! ### The commands RCBIT and RCWORD -/

theorem KeepsHostSide.refl (s : State) : KeepsHostSide s s := ⟨rfl, rfl, rfl, rfl, fun _ => rfl, rfl, rfl, rfl⟩

theorem keepsObuf_retire (s : State) (v : Word) : KeepsObuf s (s.retire v) := fun _ => rfl

/-- How a command that answers a RESULT alone ends, and what it leaves alone (R37, R57, R58). -/
theorem retire_ends_and_keeps (s : State) (v : Word) :
    EndsOk (s.retire v) v ∧ (s.retire v).a = s.a ∧ KeepsHostSide s (s.retire v) ∧ KeepsObuf s (s.retire v) ∧
      (s.retire v).phase = s.phase :=
  ⟨⟨retire_status s v, retire_result s v⟩, retire_a s v, keepsHostSide_retire (.refl s) v,
    keepsObuf_retire s v, retire_phase s v⟩

/-- Settles O35: RCBIT answers rc(ARG0) of the byte register, which is the bit of the procedure of R130. -/
theorem rcbitReturnsProcedureBit : Obligations.RcbitReturnsProcedureBit := by
  intro s
  rw [rcBits_eq_rc]
  exact ⟨_, rfl, retire_ends_and_keeps s _⟩

theorem execRcword_ok {ir : BitVec 5} (h : ir.toNat ≤ 23) (s : State) :
    execRcword ir s = .next (s.retire (rcw ir.toNat)) := if_neg (Nat.not_lt.mpr h)

/-- Settles O37: RCWORD answers the constant word, whose bits the laws of the generator give. -/
theorem rcwordReturnsConstant : Obligations.RcwordReturnsConstant := by
  intro s ir h
  refine ⟨_, execRcword_ok h s, ⟨rfl, rfl⟩, fun j hj => ?_, fun z _ hz => ?_, (retire_ends_and_keeps s _).2⟩
  · rw [retire_result, getLsbD_rcw_pow hj, rcBits_eq_rc]
  · rw [retire_result, getLsbD_rcw_other hz]

/-! ### The period of the LFSR -/

open Function (IsPeriodicPt)

theorem lfsr_eq_iterate (n : Nat) : lfsr n = lfsrStep^[n] 0x01 := by
  induction n with
  | zero => rfl
  | succ n ih => rw [lfsr, ih, Function.iterate_succ_apply']

/-- The register is 0x01 after `n` iterations exactly when `n` is a period of the orbit of 0x01. -/
theorem isPeriodicPt_lfsrStep_iff {n : Nat} : IsPeriodicPt lfsrStep n 0x01 ↔ lfsr n = 0x01 := by
  rw [lfsr_eq_iterate]
  rfl

theorem lfsr_255 : lfsr 255 = 0x01 := by decide +kernel

/-- The register is not 0x01 after 255 / p iterations, for the prime factors p = 3, 5, 17 of 255. -/
theorem lfsr_ne_one_of_maximal_divisor : lfsr 85 ≠ 0x01 ∧ lfsr 51 ≠ 0x01 ∧ lfsr 15 ≠ 0x01 := by decide +kernel

theorem dvd_maximal_divisor_of_dvd_255 : ∀ g < 255, g ∣ 255 → g ∣ 85 ∨ g ∣ 51 ∨ g ∣ 15 := by decide +kernel

/-- No positive number below 255 is a period: its greatest common divisor with 255 would be one too, and so would 85, 51
or 15, one of which it divides. -/
theorem lfsr_ne_one {n : Nat} (hlt : n < 255) (hpos : 0 < n) : lfsr n ≠ 0x01 := by
  intro h
  have hgcd : IsPeriodicPt lfsrStep (n.gcd 255) 0x01 :=
    (isPeriodicPt_lfsrStep_iff.mpr h).gcd (isPeriodicPt_lfsrStep_iff.mpr lfsr_255)
  have hmultiple : ∀ {m : Nat}, n.gcd 255 ∣ m → lfsr m = 0x01 := fun hm =>
    isPeriodicPt_lfsrStep_iff.mp (hgcd.trans_dvd hm)
  have hgcdlt : n.gcd 255 < 255 := (Nat.gcd_le_left 255 hpos).trans_lt hlt
  obtain ⟨h85, h51, h15⟩ := lfsr_ne_one_of_maximal_divisor
  rcases dvd_maximal_divisor_of_dvd_255 _ hgcdlt (Nat.gcd_dvd_right n 255) with hm | hm | hm
  · exact h85 (hmultiple hm)
  · exact h51 (hmultiple hm)
  · exact h15 (hmultiple hm)

/-- rc depends on t modulo 255 only (R130). -/
theorem rc_add_255 (t : Nat) : rc (t + 255) = rc t := by
  unfold rc
  rw [Nat.add_mod_right]

/-- Settles O36: 255 is the exact period of the register, and rc reads its argument modulo 255. -/
theorem lfsrPeriod : Obligations.LfsrPeriod :=
  ⟨lfsr_255, fun _ => lfsr_ne_one, rc_add_255, rfl, rfl, rfl⟩

end Sys2Proof.Machine
end

section
/-! PROOFS of 43_sponge.md. What the sponge controller computes and after how many transitions, how many blocks it absorbs,
that a longer output begins with every shorter one, and what of the state a block leaves alone. -/

namespace Sys2Proof.Machine

/-! ### Absorbing -/

/-- Settles O42: NBLK blocks of `r` bits hold the `m` bits, the two ones and fewer than `r` zeros, so m + 1 lies in block
NBLK - 1, counted from 0. -/
theorem blocksAbsorbed : Obligations.BlocksAbsorbed := by
  intro r m hr
  obtain ⟨k, hk, hlen⟩ := padded_eq_mul hr m
  have hzeros := padZeros_lt hr m
  have hlast : r * k = r * (k - 1) + r := by rw [← Nat.mul_succ, Nat.succ_eq_add_one, Nat.sub_add_cancel hk]
  have hdiv : (m + 1) / r = k - 1 := by
    rw [Nat.div_eq_iff hr, Nat.mul_comm]
    omega
  rw [length_pad, hlen, Nat.mul_div_cancel_left _ hr, hdiv, Nat.sub_add_cancel hk]

/-- A block is no longer than the rate (R143). -/
theorem length_currentBlock_le (s : State) : s.currentBlock.length ≤ s.work.rate := List.length_take_le _ _

/-- Settles O44: the block, extended with zeros, has no bit set at the rate or above. -/
theorem absorbKeepsCapacityPart : Obligations.AbsorbKeepsCapacityPart := by
  intro s x y z h
  have hblock : Cube.bit (Cube.ofFlat s.currentBlock) x y z = false := by
    rw [bit_ofFlat, List.getD_eq_default _ _ ((length_currentBlock_le s).trans h)]
  rw [absorbBlock_a, bit_xor, hblock, Bool.xor_false]

/-! ### Squeezing -/

/-- The round of the loop of R146 that makes Z long enough is the last. -/
theorem squeezeLoop_last {f : Bits → Bits} {rate d : Nat} {s z : Bits} (h : d ≤ (z ++ s.take rate).length) (n : Nat) :
    squeezeLoop f rate d (n + 1) s z = z ++ s.take rate := if_pos h

/-- A round of the loop of R146 that leaves Z too short is followed by another. -/
theorem squeezeLoop_more {f : Bits → Bits} {rate d : Nat} {s z : Bits} (h : ¬ d ≤ (z ++ s.take rate).length) (n : Nat) :
    squeezeLoop f rate d (n + 1) s z = squeezeLoop f rate d n (f s) (z ++ s.take rate) := if_neg h

/-- The loop of R146 only appends to Z. -/
theorem isPrefix_squeezeLoop (f : Bits → Bits) (rate d n : Nat) (s z : Bits) : z <+: squeezeLoop f rate d n s z := by
  induction n generalizing s z with
  | zero => exact List.prefix_refl z
  | succ n ih =>
    by_cases hlast : d ≤ (z ++ s.take rate).length
    · rw [squeezeLoop_last hlast]
      exact List.prefix_append z _
    · rw [squeezeLoop_more hlast]
      exact (List.prefix_append z _).trans (ih _ _)

/-- With a longer output asked for and more rounds allowed, the loop of R146 appends to what it would have left. -/
theorem squeezeLoop_isPrefix_of_le (f : Bits → Bits) (rate : Nat) {d d' n n' : Nat} (hd : d ≤ d') (hn : n ≤ n')
    (s z : Bits) : squeezeLoop f rate d n s z <+: squeezeLoop f rate d' n' s z := by
  induction n generalizing n' s z with
  | zero => exact isPrefix_squeezeLoop f rate d' n' s z
  | succ n ih =>
    obtain ⟨n', rfl⟩ : ∃ m, n' = m + 1 := ⟨n' - 1, by omega⟩
    by_cases hlast : d ≤ (z ++ s.take rate).length
    · rw [squeezeLoop_last hlast]
      by_cases hlast' : d' ≤ (z ++ s.take rate).length
      · rw [squeezeLoop_last hlast']
      · rw [squeezeLoop_more hlast']
        exact isPrefix_squeezeLoop f rate d' n' _ _
    · rw [squeezeLoop_more hlast, squeezeLoop_more fun h => hlast (hd.trans h)]
      exact ih (Nat.le_of_succ_le_succ hn) _ _

/-- Settles O43: the loop for d' leaves a string that begins with the loop's for d, whose first d bits are the output. -/
theorem outputIsPrefix : Obligations.OutputIsPrefix := by
  intro r n d d' hr _ hd
  have hlen : d ≤ (squeezeLoop keccakFBits r d (d + 1) (spongeAbsorb keccakFBits r (n ++ pad r n.length)) []).length :=
    le_length_squeezeLoop hr (d + 1) (length_spongeAbsorb r _) ((Nat.le_succ d).trans (Nat.le_add_left _ _))
  obtain ⟨rest, hrest⟩ := squeezeLoop_isPrefix_of_le keccakFBits r hd (Nat.succ_le_succ hd)
    (spongeAbsorb keccakFBits r (n ++ pad r n.length)) []
  unfold sponge
  rw [List.take_take, Nat.min_eq_left hd, ← hrest, List.take_append_of_le_length hlen]

/-! ### The command SPONGE -/

/-- The input string of a command is the string whose bits IBUF holds (R57). -/
theorem inputBits_eq {s : State} {n : Bits} {k : Nat} (hw : Buffer.wf s.ibuf) (hk : n.length = k)
    (hn : ∀ j (h : j < n.length), n[j] = s.ibufBit j) : s.inputBits k = n := by
  subst hk
  refine List.ext_getElem (length_inputBits s _) fun j _ hj => ?_
  rw [hn j hj]
  refine (List.getElem_eq_iff _).mpr ?_
  rw [State.inputBits, getElem?_ibufRun hw hj, Nat.zero_add]

/-- Settles O40: past its checks the command ends as the controller does, with the sponge function's output in OBUF. -/
theorem spongeComputesFunction : Obligations.SpongeComputesFunction := by
  intro s n hlen hn hw hmax hout h0 h1
  have hexec := execSponge_ok hmax hout h0 h1
  rw [inputBits_eq hw hlen hn] at hexec
  have hres : s.countWord s.arg1.toNat = s.arg1 := by
    rw [countWord_of_lt s s.arg1.isLt, BitVec.ofNat_toNat, BitVec.setWidth_eq]
  exact ⟨_, hexec, length_keccakSponge h0 n _, obufHolds_spongeEnd s _ _, bit_zero, ⟨rfl, hres⟩,
    keepsHostSide_spongeEnd s _ _, rfl⟩

/-! ### The length of a run -/

/-- The transitions from SQUEEZE to IDLE (R149, R154): 26 for each block but the last, then one into FINISH and one into
IDLE. -/
def Working.fromSqueeze (w : Working) : Nat := 26 * (outputBlocks w.rate (w.outLen - w.zlen) - 1) + 2

/-- The transitions from the phase of a return tag to IDLE: from ABSORB, 26 for each block left and one into SQUEEZE. -/
def Working.fromReturn (w : Working) : Return → Nat
  | .absorb => 26 * (w.nblk - w.blk) + 1 + w.fromSqueeze
  | .squeeze => w.fromSqueeze
  | .finish => 1

/-- The transitions of the controller still to come before it is in IDLE; from ROUND, one for each round left and one that
leaves ROUND. -/
def State.remaining (s : State) : Nat :=
  match s.phase with
  | .idle => 0
  | .absorb => s.work.fromReturn .absorb
  | .round => 24 - s.work.ir.toNat + 1 + s.work.fromReturn s.work.ret
  | .squeeze => s.work.fromReturn .squeeze
  | .finish => s.work.fromReturn .finish

theorem fromReturn_pos (w : Working) (t : Return) : 0 < w.fromReturn t := by
  cases t with
  | absorb => exact Nat.add_pos_right _ (Nat.succ_pos _)
  | squeeze => exact Nat.succ_pos _
  | finish => exact Nat.one_pos

theorem remaining_idle {s : State} (h : s.phase = .idle) : s.remaining = 0 := by
  unfold State.remaining
  rw [h]

theorem remaining_round {s : State} (h : s.phase = .round) :
    s.remaining = 24 - s.work.ir.toNat + 1 + s.work.fromReturn s.work.ret := by
  unfold State.remaining
  rw [h]

/-- A permutation that has just been started takes 25 transitions (R123, R154). -/
theorem remaining_permutation {s : State} (h : s.phase = .round) (hi : s.work.ir = 0) :
    s.remaining = 25 + s.work.fromReturn s.work.ret := by
  rw [remaining_round h, hi]
  rfl

theorem remaining_of_return {s : State} {t : Return} (h : s.phase = t.phase) : s.remaining = s.work.fromReturn t := by
  unfold State.remaining
  rw [h]
  cases t <;> rfl

theorem remaining_pos {s : State} (h : s.phase ≠ .idle) : 0 < s.remaining := by
  unfold State.remaining
  split
  · next hp => exact absurd hp h
  · exact fromReturn_pos s.work .absorb
  · exact Nat.add_pos_right _ (fromReturn_pos s.work _)
  · exact fromReturn_pos s.work .squeeze
  · exact fromReturn_pos s.work .finish

/-- The rows of R149, from a state to the next; in IDLE nothing moves. -/
inductive ControllerRow (s : State) : State → Prop where
  | idle (hp : s.phase = .idle) : ControllerRow s s
  | absorbMore (hp : s.phase = .absorb) (hb : s.work.blk < s.work.nblk) : ControllerRow s s.absorbBlock
  | absorbDone (hp : s.phase = .absorb) (hb : ¬ s.work.blk < s.work.nblk) : ControllerRow s { s with phase := .squeeze }
  | roundMore (hp : s.phase = .round) (hi : s.work.ir.toNat < 24) : ControllerRow s s.roundStep
  | roundDone (hp : s.phase = .round) (hi : ¬ s.work.ir.toNat < 24) :
      ControllerRow s { s with phase := s.work.ret.phase }
  | squeezeMore (hp : s.phase = .squeeze) (hz : s.work.zlen + s.work.rate < s.work.outLen) :
      ControllerRow s s.squeezeBlock
  | squeezeLast (hp : s.phase = .squeeze) (hz : ¬ s.work.zlen + s.work.rate < s.work.outLen) :
      ControllerRow s s.squeezeLast
  | finish (hp : s.phase = .finish) : ControllerRow s s.finishSponge

/-- Everything a transition of the controller can do: callers take the rows instead of unfolding `State.coreStep`. -/
theorem controllerRow_coreStep (s : State) : ControllerRow s s.coreStep := by
  cases hp : s.phase with
  | idle => exact (coreStep_idle hp).symm ▸ .idle hp
  | absorb =>
    by_cases hb : s.work.blk < s.work.nblk
    · exact (coreStep_absorb_more hp hb).symm ▸ .absorbMore hp hb
    · exact (coreStep_absorb_done hp hb).symm ▸ .absorbDone hp hb
  | round =>
    by_cases hi : s.work.ir.toNat < 24
    · exact (coreStep_round_more hp hi).symm ▸ .roundMore hp hi
    · exact (coreStep_round_done hp hi).symm ▸ .roundDone hp hi
  | squeeze =>
    by_cases hz : s.work.zlen + s.work.rate < s.work.outLen
    · exact (coreStep_squeeze_more hp hz).symm ▸ .squeezeMore hp hz
    · exact (coreStep_squeeze_last hp hz).symm ▸ .squeezeLast hp hz
  | finish => exact (coreStep_finish hp).symm ▸ .finish hp

/-- The sampled rate stays until the command ends (R149). -/
theorem ControllerRow.rate_eq {s t : State} (h : ControllerRow s t) (ht : t.phase ≠ .idle) :
    t.work.rate = s.work.rate := by
  cases h with
  | finish => exact absurd (finishSponge_phase s) ht
  | _ => rfl

/-- Every transition of a controller that runs at a positive rate is one of those that remained. -/
theorem ControllerRow.remaining_succ {s t : State} (h : ControllerRow s t) (hs : s.phase ≠ .idle)
    (hr : 0 < s.work.rate) : t.remaining + 1 = s.remaining := by
  cases h with
  | idle hp => exact absurd hp hs
  | absorbMore hp hb =>
    rw [remaining_of_return (t := .absorb) hp, remaining_permutation (absorbBlock_phase s) rfl, absorbBlock_work]
    simp only [Working.fromReturn, Working.fromSqueeze]
    omega
  | absorbDone hp hb =>
    rw [remaining_of_return (t := .absorb) hp, remaining_of_return (t := .squeeze) rfl]
    simp only [Working.fromReturn]
    omega
  | roundMore hp hi =>
    have hret : s.roundStep.work.fromReturn s.roundStep.work.ret = s.work.fromReturn s.work.ret := rfl
    have hir : s.roundStep.work.ir.toNat = s.work.ir.toNat + 1 := toNat_ir_succ hi
    rw [remaining_round hp, remaining_round (s := s.roundStep) hp, hret, hir]
    omega
  | roundDone hp hi =>
    rw [remaining_round hp, remaining_of_return rfl, Nat.sub_eq_zero_of_le (Nat.not_lt.mp hi), Nat.zero_add, Nat.add_comm]
  | squeezeMore hp hz =>
    have hstep := outputBlocks_step (d := s.work.outLen - s.work.zlen) hr (by omega)
    have hpos := outputBlocks_pos s.work.rate (s.work.outLen - (s.work.zlen + s.work.rate))
    rw [Nat.sub_sub] at hstep
    rw [remaining_of_return (t := .squeeze) hp, remaining_permutation (squeezeBlock_phase s) rfl, squeezeBlock_work]
    simp only [Working.fromReturn, Working.fromSqueeze]
    omega
  | squeezeLast hp hz =>
    rw [remaining_of_return (t := .squeeze) hp, remaining_of_return (t := .finish) rfl]
    simp only [Working.fromReturn, Working.fromSqueeze]
    rw [outputBlocks_small (by omega)]
  | finish hp =>
    rw [remaining_of_return (t := .finish) hp, remaining_idle (finishSponge_phase s)]
    rfl

/-- A controller that runs at a positive rate is in IDLE after `m` transitions exactly when no more than `m` remained. -/
theorem coreRun_phase_idle_iff {s : State} (hr : s.phase ≠ .idle → 0 < s.work.rate) (m : Nat) :
    (State.coreRun m s).phase = .idle ↔ s.remaining ≤ m := by
  induction m generalizing s with
  | zero =>
    show s.phase = .idle ↔ _
    exact ⟨fun h => (remaining_idle h).le, fun h => by_contra fun hp => absurd (remaining_pos hp) (by omega)⟩
  | succ m ih =>
    by_cases hp : s.phase = .idle
    · rw [coreRun_idle hp, remaining_idle hp]
      exact ⟨fun _ => Nat.zero_le _, fun _ => hp⟩
    · have hrow := controllerRow_coreStep s
      have hstep := hrow.remaining_succ hp (hr hp)
      rw [coreRun_succ, ih fun h => (hrow.rate_eq h).symm ▸ hr hp]
      omega

/-- From the start of a command the bound of R154 remains. -/
theorem remaining_startSponge (s : State) (r d : Nat) (n : Bits) :
    (s.startSponge r d n).remaining = transitionBound r d ((n ++ pad r n.length).length / r) := by
  have hpos := outputBlocks_pos r d
  rw [remaining_of_return (t := .absorb) rfl, startSponge_work]
  simp only [Working.fromReturn, Working.fromSqueeze, transitionBound, Nat.sub_zero]
  omega

/-- Settles O41: each transition takes one from those that remain, and the bound of R154 remains at the start. -/
theorem controllerRunLength : Obligations.ControllerRunLength := by
  intro s r d n m hr
  rw [coreRun_phase_idle_iff fun _ => hr, remaining_startSponge]
  rfl

end Sys2Proof.Machine
end

section
/-! PROOFS of 44_padding.md. The zeros of a pad as the one number below x that fills the block, the bits of a pad, and the
command PAD. -/

namespace Sys2Proof.Machine

/-! ### The number of zeros -/

/-- R160: j is the one number below x that makes m + j + 2 a multiple of x. -/
theorem padZeros_eq {x m j : Nat} (hj : j < x) (h : x ∣ m + (j + 2)) : padZeros x m = j := by
  have hx : 0 < x := Nat.zero_lt_of_lt hj
  obtain ⟨k, -, hk⟩ := padded_eq_mul hx m
  have hmod : m + (padZeros x m + 2) ≡ m + (j + 2) [MOD x] :=
    (Nat.modEq_zero_iff_dvd.mpr ⟨k, hk⟩).trans (Nat.modEq_zero_iff_dvd.mpr h).symm
  exact ((hmod.add_left_cancel' m).add_right_cancel' 2).eq_of_lt_of_lt (padZeros_lt hx m) hj

/-- The same from the room that is left in the last block, m mod x bits of which are taken. -/
theorem padZeros_of_mod {x m j : Nat} (hj : j < x) (h : x ∣ m % x + (j + 2)) : padZeros x m = j :=
  padZeros_eq hj ((((Nat.mod_modEq m x).add_right _).dvd_iff dvd_rfl).mp h)

/-- R160 as it is written: j is the non-negative (-m - 2) mod x. -/
theorem padZeros_of_emod {x m j : Nat} (hx : 0 < x) (h : (j : Int) = (-(m : Int) - 2) % (x : Int)) :
    padZeros x m = j := by
  have hlt : (j : Int) < x := h ▸ Int.emod_lt_of_pos _ (Int.natCast_pos.mpr hx)
  have hdvd : (x : Int) ∣ -(m : Int) - 2 - j := h ▸ Int.dvd_self_sub_emod
  have hneg : ((m + (j + 2) : Nat) : Int) = -(-(m : Int) - 2 - j) := by omega
  exact padZeros_eq (Int.ofNat_lt.mp hlt) (Int.natCast_dvd_natCast.mp (hneg ▸ Int.dvd_neg.mpr hdvd))

/-! ### The bits of a pad -/

/-- A pad by the number of its zeros. -/
theorem pad_of_padZeros {x m j : Nat} (h : padZeros x m = j) : pad x m = true :: (List.replicate j false ++ [true]) := by
  rw [pad, h]

/-- The ones of a pad are its first bit and its last. -/
theorem getElem_pad {x m i : Nat} (h : i < (pad x m).length) :
    (pad x m)[i] = decide (i = 0 ∨ i = padZeros x m + 1) := by
  rw [length_pad] at h
  cases i with
  | zero => simp [pad]
  | succ i =>
    rcases Nat.lt_or_eq_of_le (show i ≤ padZeros x m by omega) with hi | hi
    · simp [pad, List.getElem_append_left, hi, hi.ne]
    · simp [pad, hi]

/-- Settles O39: each clause names the number of zeros that fills the block. -/
theorem padProperties : Obligations.PadProperties := by
  intro x m hx
  have hlt := padZeros_lt hx m
  obtain ⟨k, -, hk⟩ := padded_eq_mul hx m
  rw [length_pad]
  refine ⟨hk ▸ Nat.mul_mod_right x k, Nat.le_add_left .., by omega, fun h => ?_, fun h2 h => ?_, fun h2 h => ?_, ?_, ?_⟩
  · exact pad_of_padZeros (padZeros_of_mod (by omega) ⟨2, by omega⟩)
  · exact pad_of_padZeros (padZeros_of_mod hx ⟨1, by omega⟩)
  · exact pad_of_padZeros (padZeros_of_mod (by omega) ⟨1, by omega⟩)
  · rintro rfl
    exact pad_of_padZeros (Nat.lt_one_iff.mp hlt)
  · rintro rfl
    split
    · next h => exact pad_of_padZeros (padZeros_of_mod (j := 0) hx ⟨1, by omega⟩)
    · next h => exact pad_of_padZeros (padZeros_of_mod (j := 1) (by omega) ⟨2, by omega⟩)

/-! ### The command -/

/-- PAD at x > 0, where its pad fits MAXBITS (R162). -/
theorem execPad_ok {s : State} (hx : 0 < s.arg0.toNat)
    (he : s.exceeds (padZeros s.arg0.toNat s.len.toNat + 2) = false) :
    execPad s = .next ((s.emit (pad s.arg0.toNat s.len.toNat)).retire
      (s.countWord (padZeros s.arg0.toNat s.len.toNat + 2))) :=
  (if_neg hx.ne').trans (if_neg (Bool.eq_false_iff.mp he))

/-- Settles O38: PAD ends with its pad in OBUF, whose zeros are j by R160. -/
theorem padWritesString : Obligations.PadWritesString := by
  intro s j h0 hj he
  have hx : 0 < s.arg0.toNat := Nat.pos_of_ne_zero fun h => h0 (BitVec.eq_of_toNat_eq h)
  obtain rfl := padZeros_of_emod hx hj
  refine ⟨_, execPad_ok hx he, rfl, fun hlt => ?_, fun i hi => ?_, ?_, keepsHostSide_retire (keepsHostSide_emit s _) _, ?_⟩
  · rw [retire_result, countWord_of_lt s hlt, BitVec.toNat_ofNat, Nat.mod_eq_of_lt hlt]
  · have hlen : i < (pad s.arg0.toNat s.len.toNat).length := (length_pad ..).symm ▸ hi
    exact (obufHolds_emit s _ _ i hlen).trans (getElem_pad hlen)
  · rw [retire_a, emit_a]
  · rw [retire_phase, emit_phase]

end Sys2Proof.Machine
end

section
/-! PROOFS of 45_entry_points.md. What KECCAK and DIGEST compute: their checks pass at every legal capacity, and past them the
controller leaves the output of the domain-separated sponge in OBUF, for DIGEST read byte by byte. -/

namespace Sys2Proof.Machine

/-! ### What the two commands share -/

/-- A capacity of at most twice a length within MAXBITS has a half within MAXBITS. -/
theorem halfExceeds_of_le {s : State} {c n : Nat} (hn : s.exceeds n = false) (hc : c ≤ 2 * n) : s.halfExceeds c = false := by
  unfold State.exceeds at hn
  unfold State.halfExceeds
  cases hm : s.maxBits with
  | none => rfl
  | some m =>
    simp only [hm, decide_eq_false_iff_not] at hn ⊢
    omega

/-- Every legal MAXBITS holds the output of a legal capacity (R66). -/
theorem halfExceeds_of_maxBitsLegal {s : State} {c : Nat} (h : s.maxBitsLegal = true) (hc : c < 1600) :
    s.halfExceeds c = false :=
  halfExceeds_of_le (exceeds_of_maxBitsLegal h) (by omega)

/-- The output of the routine of R170 at a legal capacity is exactly c/2 bits. -/
theorem length_keccakFunction {c : Nat} (hc : c < 1600) (n : Bits) : (keccakFunction c n).length = c / 2 :=
  length_keccakSponge (by omega) _ _

/-- How a run of the controller ends but for OBUF, and what it leaves alone (R37, R152), where RESULT can hold the length. -/
theorem spongeEnd_ends_and_keeps (s : State) {d : Nat} (out : Bits) (hd : d < 2 ^ 64) :
    (∀ x y z, Cube.bit (s.spongeEnd d out).a x y z = false) ∧ EndsOk (s.spongeEnd d out) (BitVec.ofNat 64 d) ∧
      KeepsHostSide s (s.spongeEnd d out) ∧ (s.spongeEnd d out).phase = .idle :=
  ⟨bit_zero, ⟨rfl, countWord_of_lt s hd⟩, keepsHostSide_spongeEnd s d out, rfl⟩

/-! ### The command KECCAK -/

/-- Settles O45: past its checks the command ends as the controller does, with the output of R170 in OBUF. -/
theorem keccakComputesFunction : Obligations.KeccakComputesFunction := by
  intro s n hlen hn hw hmax hlegal heven h0 h1
  have hexec := execKeccak_ok hmax (halfExceeds_of_maxBitsLegal hlegal h1) heven h0 h1
  rw [inputBits_eq hw hlen hn] at hexec
  exact ⟨_, hexec, length_keccakFunction h1 n, obufHolds_spongeEnd s _ _, spongeEnd_ends_and_keeps s _ (by omega)⟩

/-! ### Strings of bytes -/

@[simp] theorem bytesToBits_cons (v : BitVec 8) (msg : List (BitVec 8)) :
    bytesToBits (v :: msg) = byteBits v ++ bytesToBits msg := List.flatMap_cons

@[simp] theorem length_bytesToBits (msg : List (BitVec 8)) : (bytesToBits msg).length = 8 * msg.length := by
  induction msg with
  | nil => rfl
  | cons v msg ih =>
    rw [bytesToBits_cons, List.length_append, length_byteBits, ih, List.length_cons]
    omega

/-- R173: bit i of byte k of a message is bit 8k + i of its string. -/
theorem getElem?_bytesToBits (msg : List (BitVec 8)) (k : Nat) {i : Nat} (hi : i < 8) :
    (bytesToBits msg)[8 * k + i]? = msg[k]?.map fun v => v.getLsbD i := by
  induction msg generalizing k with
  | nil => rfl
  | cons v msg ih =>
    rw [bytesToBits_cons]
    cases k with
    | zero =>
      rw [Nat.mul_zero, Nat.zero_add, List.getElem?_append_left (hi.trans_eq (length_byteBits v).symm),
        getElem?_byteBits v hi]
      rfl
    | succ k =>
      rw [List.getElem?_append_right (by rw [length_byteBits]; omega), length_byteBits,
        show 8 * (k + 1) + i - 8 = 8 * k + i by omega, ih k, List.getElem?_cons_succ]

/-- IBUF holds the bits of a message where it holds its bytes by R52. -/
theorem getElem_bytesToBits_eq_ibufBit {s : State} {msg : List (BitVec 8)}
    (h : ∀ k (_ : k < msg.length), ∀ i < 8, msg[k].getLsbD i = s.ibufBit (8 * k + i)) (j : Nat)
    (hj : j < (bytesToBits msg).length) : (bytesToBits msg)[j] = s.ibufBit j := by
  have hk : j / 8 < msg.length := by
    rw [length_bytesToBits] at hj
    omega
  have hi : j % 8 < 8 := Nat.mod_lt j (by decide)
  have hbit := getElem?_bytesToBits msg (j / 8) hi
  have hbyte := h (j / 8) hk (j % 8) hi
  rw [Nat.div_add_mod] at hbit hbyte
  rw [List.getElem_eq_iff, hbit, List.getElem?_eq_getElem hk, Option.map_some, hbyte]

/-- R52: bit i of byte k of a packed string is its bit 8k + i. -/
theorem getLsbD_packBytes {n k i : Nat} (bs : Bits) (hk : k < n) (hi : i < 8) :
    ((packBytes n bs).getD k 0).getLsbD i = bs.getD (8 * k + i) false := by
  have hbyte : (packBytes n bs).getD k 0 = bitsByte ((bs.drop (8 * k)).take 8) := by
    simp [packBytes, List.getD_eq_getElem?_getD, hk]
  rw [hbyte, getLsbD_bitsByte _ hi, List.getD_eq_getElem?_getD, List.getElem?_take_of_lt hi, List.getElem?_drop,
    List.getD_eq_getElem?_getD]

/-! ### The command DIGEST -/

/-- Settles O46: the input string is the message's (R173), and byte k of the digest packs the output bits from 8k on (R174). -/
theorem digestComputesBytes : Obligations.DigestComputesBytes := by
  intro s msg hlen hmsg hw hmax hlegal h16 h0 h1
  have hexec := execDigest_ok hmax (halfExceeds_of_maxBitsLegal hlegal h1) h16 h0 h1
  rw [inputBits_eq hw (by rw [length_bytesToBits, hlen]) (getElem_bytesToBits_eq_ibufBit hmsg)] at hexec
  refine ⟨_, hexec, fun k hk i hi => ?_, spongeEnd_ends_and_keeps s _ (by omega)⟩
  have hbit : 8 * k + i < (keccakFunction s.arg0.toNat (bytesToBits msg)).length := by
    rw [length_keccakFunction h1]
    omega
  rw [sha3LikeDigest, getLsbD_packBytes _ hk hi, List.getD_eq_getElem _ _ hbit]
  exact obufHolds_spongeEnd s _ _ _ hbit

end Sys2Proof.Machine
end

section
/-! PROOFS of 60_exceptions.md. Which error a command raises where an operand is illegal, that raising one changes STATUS alone,
how every command ends, and what a step leaves alone. -/

namespace Sys2Proof.Machine

/-! ### Raising an error -/

/-- STATUS after an error, field by field (R33, R195). -/
theorem raise_fields (s : State) (e : ErrorKind) :
    (s.raise e).busy = false ∧ (s.raise e).done = true ∧ (s.raise e).errcode = e.code := by
  unfold State.busy State.done State.errcode
  rw [raise_status]
  cases e <;> decide

/-- Settles O48: STATUS shows the error, and `raise` writes nothing else. -/
theorem raiseChangesStatusOnly : Obligations.RaiseChangesStatusOnly := by
  refine ⟨fun s e => ?_, rfl, rfl, rfl, rfl⟩
  obtain ⟨hbusy, hdone, hcode⟩ := raise_fields s e
  exact ⟨hbusy, hdone, raise_err s e, hcode, rfl⟩

/-! ### Illegal rates and capacities -/

/-- SPONGE at an illegal rate, its lengths within MAXBITS (R141, R192). -/
theorem execSponge_invalidRate {s : State} (hm : s.exceeds s.len.toNat = false) (hd : s.exceeds s.arg1.toNat = false)
    (hr : s.arg0.toNat = 0 ∨ 1600 ≤ s.arg0.toNat) : execSponge s = .next (s.raise .invalidRate) := by
  unfold execSponge State.lenOperand State.arg0Operand State.arg1Operand
  rw [if_neg (by simp [hm, hd]), if_pos hr]

/-- KECCAK at an illegal capacity, its lengths within MAXBITS (R171, R193). -/
theorem execKeccak_invalidCapacity {s : State} (hm : s.exceeds (s.len.toNat + 2) = false)
    (hc : s.halfExceeds s.arg0.toNat = false) (h : s.arg0.toNat % 2 = 1 ∨ 1600 ≤ s.arg0.toNat) :
    execKeccak s = .next (s.raise .invalidCapacity) := by
  unfold execKeccak State.lenOperand State.arg0Operand
  rw [if_neg (by simp [hm, hc]), if_pos h]

/-- DIGEST at an illegal capacity, its lengths within MAXBITS (R176, R193). -/
theorem execDigest_invalidCapacity {s : State} (hm : s.exceeds (8 * s.len.toNat + 2) = false)
    (hc : s.halfExceeds s.arg0.toNat = false) (h : s.arg0.toNat % 16 ≠ 0 ∨ 1600 ≤ s.arg0.toNat) :
    execDigest s = .next (s.raise .invalidCapacity) := by
  unfold execDigest State.lenBytesOperand State.arg0Operand
  rw [if_neg (by simp [hm, hc]), if_pos h]

/-- KECCAK at capacity 0, which is even and whose output of no bits fits every MAXBITS (R192). -/
theorem execKeccak_invalidRate {s : State} (hm : s.exceeds (s.len.toNat + 2) = false) (h0 : s.arg0.toNat = 0) :
    execKeccak s = .next (s.raise .invalidRate) := by
  have hc : s.halfExceeds s.arg0.toNat = false := halfExceeds_of_le hm (by omega)
  unfold execKeccak State.lenOperand State.arg0Operand
  rw [if_neg (by simp [hm, hc]), if_neg (by omega), if_pos h0]

/-- DIGEST at capacity 0, which is a multiple of 16 and whose output of no bits fits every MAXBITS (R192). -/
theorem execDigest_invalidRate {s : State} (hm : s.exceeds (8 * s.len.toNat + 2) = false) (h0 : s.arg0.toNat = 0) :
    execDigest s = .next (s.raise .invalidRate) := by
  have hc : s.halfExceeds s.arg0.toNat = false := halfExceeds_of_le hm (by omega)
  unfold execDigest State.lenBytesOperand State.arg0Operand
  rw [if_neg (by simp [hm, hc]), if_neg (by omega), if_pos h0]

/-- PAD at x = 0, which is checked before MAXBITS (R163; log entry 21). -/
theorem execPad_invalidRate {s : State} (h0 : s.arg0.toNat = 0) : execPad s = .next (s.raise .invalidRate) := if_pos h0

/-- Settles O49: each of the four commands raises InvalidRate, whose STATUS is 0x26. -/
theorem invalidRateRaised : Obligations.InvalidRateRaised :=
  fun _ => ⟨execSponge_invalidRate, execKeccak_invalidRate, execDigest_invalidRate, execPad_invalidRate⟩

/-- Settles O50: both commands raise InvalidCapacity, whose STATUS is 0x36. -/
theorem invalidCapacityRaised : Obligations.InvalidCapacityRaised :=
  fun _ hc => ⟨fun hm => execKeccak_invalidCapacity hm hc, fun hm => execDigest_invalidCapacity hm hc⟩

/-! ### How every command ends -/

/-- Of the four ways a command ends, one raises an error and the others report DONE (R33, R196). -/
theorem Ending.raised_or_done {s t : State} {i : Instr} (h : Ending s i t) :
    (∃ e, t = s.raise e) ∨ t.status = statusDone := by
  cases h with
  | raised e => exact .inl ⟨e, rfl⟩
  | plain | output | sponge => exact .inr rfl

/-- Settles O52: the one state a command leads to is one of its endings. -/
theorem commandsHaveTwoOutcomes : Obligations.CommandsHaveTwoOutcomes := by
  intro i s
  obtain ⟨t, ht, hend⟩ := exec_ending i s
  exact ⟨t, ht, hend.raised_or_done⟩

/-! ### What a step leaves alone -/

/-- Settles O11: of the four kinds of step this is the one with nothing left to do. -/
theorem idleHoldsEverything : Obligations.IdleHoldsEverything := fun _ hp hc hh => step_nothing hp hc hh

/-- A step of core `k` that leads to a next system replaces that core's state by its own next state, or there is no core `k`
(R207; log entry 23). -/
theorem stepAt_next {sys sys' : System} {k : Nat} (h : System.stepAt sys k = .next sys') :
    (sys[k]? = none ∧ sys' = sys) ∨ ∃ s t, sys[k]? = some s ∧ step s = .next t ∧ sys' = sys.set k t := by
  unfold System.stepAt at h
  split at h
  · next hk =>
    cases h
    exact .inl ⟨hk, rfl⟩
  · next s hk =>
    split at h
    · next t ht =>
      cases h
      exact .inr ⟨s, t, hk, ht, rfl⟩
    · cases h
    · cases h

/-- Settles O55: the next system differs from the system at most at `k`. -/
theorem instancesAreIndependent : Obligations.InstancesAreIndependent := by
  intro sys sys' k j h hj
  rcases stepAt_next h with ⟨-, rfl⟩ | ⟨s, t, -, -, rfl⟩
  · rfl
  · exact List.getElem?_set_ne hj.symm

end Sys2Proof.Machine
end

section
/-! PROOFS of 70_reset_and_hazards.md, and of two choices of the model: a host access beyond MAXBITS (log entry 20) and a
command with an illegal index (log entry 18). -/

namespace Sys2Proof.Machine

/-! ### The reset event -/

/-- Every bit of A is 0 after the reset event (R42, R220). -/
theorem bit_resetEvent_a (s : State) (x y : Fin 5) (z : Fin 64) : Cube.bit s.resetEvent.a x y z = false := by
  rw [resetEvent_a, ← zero_eq_replicate, bit_zero]

/-- Settles O2: the step is the host's access, and the reset event gives each field the value of R42 but keeps MAXBITS and the
accesses that remain. -/
theorem resetEventReplacesState : Obligations.ResetEventReplacesState := fun _ _ hp hc hh =>
  ⟨_, step_host hp hc hh, bit_resetEvent_a _, resetEvent_status _, resetEvent_arg0 _, resetEvent_arg1 _, resetEvent_len _,
    resetEvent_result _, resetEvent_phase _, resetEvent_cmd _, resetEvent_ibuf _, resetEvent_obuf _, resetEvent_maxBits _,
    resetEvent_host _⟩

/-! ### Accesses beyond MAXBITS -/

/-- The host's access to buffer bits that end above MAXBITS is a fault, whatever it would do (log entry 20). -/
theorem step_beyond {s t : State} {x : Access} {n : Nat} {rest : List Access} (hp : s.phase = .idle) (hc : s.cmd = none)
    (he : s.exceeds n = true) (hx : x.perform { s with host := rest } = State.ifBits { s with host := rest } n t)
    (hh : s.host = x :: rest) : step s = .fault .noSuchBufferBit :=
  (step_host hp hc hh).trans (hx.trans (ifBits_fault he))

/-- Settles O10: each of the six buffer accesses checks its own extent against MAXBITS before it does anything else. -/
theorem accessBeyondMaxBitsFaults : Obligations.AccessBeyondMaxBitsFaults := by
  intro s x n rest hp hc hh hx he
  rcases hx with ⟨i, bits, rfl, rfl⟩ | ⟨k, v, rfl, rfl⟩ | ⟨i, m, rfl, rfl⟩ | ⟨i, m, rfl, rfl⟩ | ⟨k, rfl, rfl⟩ | ⟨k, rfl, rfl⟩
  all_goals exact step_beyond hp hc he rfl hh

/-! ### Commands with an illegal index -/

/-- A command term that is not well-formed raises UnsupportedVariant: only the four commands of format CI can be so, and their
meanings check the index against the bound of R77 (log entry 18). -/
theorem exec_not_wellFormed {i : Instr} (h : i.wellFormed = false) (s : State) :
    exec i s = .next (s.raise .unsupportedVariant) := by
  cases i with
  | iota | rnd | keccakp | rcword => exact if_pos (Nat.lt_of_not_le (of_decide_eq_false h))
  | _ => exact Bool.noConfusion h

/-- Settles O20: the command raises UnsupportedVariant, whose STATUS is 0x46. -/
theorem illFormedCommandsRaise : Obligations.IllFormedCommandsRaise := fun s _ h => exec_not_wellFormed h s

end Sys2Proof.Machine
end
